-- ==== Sys2Proof/Word.lean ====
section
/-! DEFINITION. The word types of the block (00_scope.md R6): a byte, the opaque 32-bit and
64-bit patterns of the two register spaces. Everything else about words (byte order, fields)
stands in Decode.lean and under Machine/. -/

namespace Sys2Proof

/-- 8 bits (R6). -/
abbrev Byte := BitVec 8

/-- One entry of the 32-bit register space: "opaque bit pattern" (R10). -/
abbrev Word32 := BitVec 32

/-- One entry of the 64-bit register space (R11). -/
abbrev Word64 := BitVec 64

end Sys2Proof
end

