-- ==== Sys2Proof/Config.lean ====
section
/-! DEFINITION. What the configuration of the block fixes (00_scope.md R5), and the values the
spec leaves open: the NaN draw (R168, D12) and the three transcendental functions (R170, D13).
An open value is an `opaque` constant with no body: nothing can be proved about which value it is. -/

namespace Sys2Proof

/-- `NREG32` (R5): entries of the 32-bit register space. -/
abbrev Config.nReg32 : Nat := 256

/-- `NREG64` (R5): entries of the 64-bit register space. -/
abbrev Config.nReg64 : Nat := 256

/-- `NSLOT` (R5): slots of the Opcode Store. -/
abbrev Config.nSlot : Nat := 1024

/-- How many binary32 NaN patterns of one sign there are: every non-zero 23-bit fraction (R160). -/
abbrev Config.nNaN32 : Nat := 8388607

/-- How many binary64 NaN patterns of one sign there are: every non-zero 52-bit fraction (R161). -/
abbrev Config.nNaN64 : Nat := 4503599627370495

/-- The FREE VALUE of R168 (D12, U1; log entry 6): the n-th draw of a binary32 NaN, as its sign
and its fraction field less one, so that the draws range over exactly the NaN patterns. -/
opaque Config.nanDraw32 : Nat → Bool × Fin Config.nNaN32

/-- The FREE VALUE of R168 for binary64 (log entry 6). -/
opaque Config.nanDraw64 : Nat → Bool × Fin Config.nNaN64

/-- `SIN64` (R170, D13, U2; log entry 7): a total function of the argument pattern, otherwise open. -/
opaque Config.sin64 : Word64 → Word64

/-- `COS64` (R170; log entry 7). -/
opaque Config.cos64 : Word64 → Word64

/-- `TAN64` (R170; log entry 7). -/
opaque Config.tan64 : Word64 → Word64

end Sys2Proof
end

