-- ==== Sys2Proof/Syntax.lean ====
section
/-! DEFINITION. What can be presented to the block (`Input`) and what it decodes to (`Instr`, one
constructor per row of spec/opcode_table.json). The four formats BUS, OPREC, OPREQ and PORT
(30_encoding.md) are told apart by WHERE a thing arrives, never by its bits. -/

namespace Sys2Proof

/-- The direction of a bus transaction (R70). -/
inductive Direction where
  | read
  | write
  deriving DecidableEq, Repr

/-- A bus transaction: the tuple of direction, 8-bit address and payload bytes (R70, D29). The
payload is any finite byte list (D26); its first byte is the first delivered (R6). -/
structure Transaction where
  direction : Direction
  address : Byte
  payload : List Byte
  deriving DecidableEq, Repr

/-- An opcode record: the 4-byte tuple of kind byte and three operand bytes (R75). -/
structure Record where
  kind : Byte
  operand0 : Byte
  operand1 : Byte
  operand2 : Byte
  deriving DecidableEq, Repr

/-- The six recognized record kinds (R76). -/
inductive Kind where
  | nop
  | load32
  | load64
  | store32
  | store64
  | executeOp
  deriving DecidableEq, Repr

/-- The twelve recognized operations (R80). -/
inductive Op where
  | add32 | sub32 | mul32 | div32
  | add64 | sub64 | mul64 | div64
  | sine64 | cosine64 | tangent64 | squareRoot64
  deriving DecidableEq, Repr

/-- An Operation Request (R79): the 8-bit operation identifier and three unsigned indices of any
size (D3). -/
structure Request where
  op : Byte
  dst : Nat
  src0 : Nat
  src1 : Nat
  deriving DecidableEq, Repr

/-- A call of a component contract, or the reset event, selected by name (R86, R205). -/
inductive PortCall where
  | read32 (index : Nat)
  | read64 (index : Nat)
  | write32 (index : Nat) (value : Word32)
  | write64 (index : Nat) (value : Word64)
  | rfClear
  | osWrite (index : Nat) (record : Record)
  | osRead (index : Nat)
  | osClear
  | execute (request : Request)
  | reset
  deriving DecidableEq, Repr

/-- Everything the environment can present to the control loop. -/
inductive Input where
  /-- A transaction returned by `poll()` (R190). -/
  | txn (t : Transaction)
  /-- A record presented to the record decoder (R124). -/
  | record (r : Record)
  /-- A request presented to the dispatcher's control multiplexer (R79, R140). -/
  | request (r : Request)
  /-- A local-port call or the reset event (R205, R251). -/
  | port (c : PortCall)
  /-- "Run the record in slot n": the form R133 refuses by name (D9, U7). -/
  | runSlot (index : Nat)
  /-- "Run the program in the store": refused by name likewise (R133, U7). -/
  | runStore
  deriving DecidableEq, Repr

/-- The four formats of 30_encoding.md. -/
inductive Format where
  | bus | oprec | opreq | port
  deriving DecidableEq, Repr

/-- One constructor per row of spec/opcode_table.json, in the table's order. -/
inductive Instr where
  /- BUS (R194 to R197) -/
  | w32 (address : Byte) (value : Word32)
  | w64 (address : Byte) (value : Word64)
  | rd32 (address : Byte)
  | violation (direction : Direction) (address : Byte) (payload : List Byte)
  /- OPREC (R125 to R131): a record of that kind at the record decoder -/
  | nop (operand0 operand1 operand2 : Byte)
  | load32 (operand0 operand1 operand2 : Byte)
  | load64 (operand0 operand1 operand2 : Byte)
  | store32 (operand0 operand1 operand2 : Byte)
  | store64 (operand0 operand1 operand2 : Byte)
  | executeOp (dst src0 src1 : Byte)
  | nopEquiv (kind operand0 operand1 operand2 : Byte)
  /- OPREQ (R144 to R156): a request at the dispatcher -/
  | add32 (dst src0 src1 : Nat)
  | sub32 (dst src0 src1 : Nat)
  | mul32 (dst src0 src1 : Nat)
  | div32 (dst src0 src1 : Nat)
  | add64 (dst src0 src1 : Nat)
  | sub64 (dst src0 src1 : Nat)
  | mul64 (dst src0 src1 : Nat)
  | div64 (dst src0 src1 : Nat)
  | sine64 (dst src0 src1 : Nat)
  | cosine64 (dst src0 src1 : Nat)
  | tangent64 (dst src0 src1 : Nat)
  | squareRoot64 (dst src0 src1 : Nat)
  | unsupported (op : Byte) (dst src0 src1 : Nat)
  /- PORT (R100 to R104, R120 to R122, R140, R251) -/
  | read32 (index : Nat)
  | read64 (index : Nat)
  | write32 (index : Nat) (value : Word32)
  | write64 (index : Nat) (value : Word64)
  | rfClear
  | osWrite (index : Nat) (record : Record)
  | osRead (index : Nat)
  | osClear
  | execute (op : Byte) (dst src0 src1 : Nat)
  | reset
  deriving DecidableEq, Repr

end Sys2Proof
end

