-- ==== Sys2Proof/WellFormed.lean ====
section
/-! DEFINITION. Which terms of `Instr` are instructions. Only the three catch-all rows have a
condition: their operands must be ones that no earlier row of their format takes (R71, R77, R156). -/

namespace Sys2Proof

/-- The three handled shapes of R71: (Write, 4), (Write, 8), (Read, 0). -/
def handledShape : Direction → Nat → Bool
  | .write, n => n == 4 || n == 8
  | .read, n => n == 0

/-- Well-formedness: a VIOLATION is of no handled shape (R197), a NOP_EQUIV has a kind byte 6 to 255
(R131), an UNSUPPORTED has an identifier 12 to 255 (R156). -/
def Instr.wellFormed : Instr → Bool
  | .w32 _ _ => true
  | .w64 _ _ => true
  | .rd32 _ => true
  | .violation d _ p => !handledShape d p.length
  | .nop _ _ _ => true
  | .load32 _ _ _ => true
  | .load64 _ _ _ => true
  | .store32 _ _ _ => true
  | .store64 _ _ _ => true
  | .executeOp _ _ _ => true
  | .nopEquiv k _ _ _ => decide (6 ≤ k.toNat)
  | .add32 _ _ _ => true
  | .sub32 _ _ _ => true
  | .mul32 _ _ _ => true
  | .div32 _ _ _ => true
  | .add64 _ _ _ => true
  | .sub64 _ _ _ => true
  | .mul64 _ _ _ => true
  | .div64 _ _ _ => true
  | .sine64 _ _ _ => true
  | .cosine64 _ _ _ => true
  | .tangent64 _ _ _ => true
  | .squareRoot64 _ _ _ => true
  | .unsupported op _ _ _ => decide (12 ≤ op.toNat)
  | .read32 _ => true
  | .read64 _ => true
  | .write32 _ _ => true
  | .write64 _ _ => true
  | .rfClear => true
  | .osWrite _ _ => true
  | .osRead _ => true
  | .osClear => true
  | .execute _ _ _ _ => true
  | .reset => true

end Sys2Proof
end

