-- ==== Sys2Proof/Decode.lean ====
section
/-! DEFINITION. The decoders of the four formats, and after them the encoder. The code tables stand
here (R76, R80, R86) because the spec keeps them as tables an audit may change (D4, D7, U15). -/

namespace Sys2Proof

/- ## Byte order (00_scope.md R7) -/

/-- `le32`: little-endian assembly of four bytes, the last one most significant (R7). -/
def le32 (b0 b1 b2 b3 : Byte) : Word32 := b3 ++ b2 ++ b1 ++ b0

/-- `le64`: little-endian assembly of eight bytes (R7). -/
def le64 (b0 b1 b2 b3 b4 b5 b6 b7 : Byte) : Word64 :=
  b7 ++ b6 ++ b5 ++ b4 ++ b3 ++ b2 ++ b1 ++ b0

/-- Byte number `i` of a word, byte 0 being bits 7..0. -/
def byteOf (n i : Nat) (w : BitVec n) : Byte := w.extractLsb' (8 * i) 8

/-- `bytes_le32` (R7). -/
def bytesLe32 (w : Word32) : List Byte :=
  [byteOf 32 0 w, byteOf 32 1 w, byteOf 32 2 w, byteOf 32 3 w]

/-- `bytes_le64` (R7). -/
def bytesLe64 (w : Word64) : List Byte :=
  [byteOf 64 0 w, byteOf 64 1 w, byteOf 64 2 w, byteOf 64 3 w,
   byteOf 64 4 w, byteOf 64 5 w, byteOf 64 6 w, byteOf 64 7 w]

/- ## Format BUS -/

/-- The 32-bit operand of a 4-byte payload (R72); no other payload has one. -/
def payload32 : List Byte → Option Word32
  | [b0, b1, b2, b3] => some (le32 b0 b1 b2 b3)
  | _ => none

/-- The 64-bit operand of an 8-byte payload (R72). -/
def payload64 : List Byte → Option Word64
  | [b0, b1, b2, b3, b4, b5, b6, b7] => some (le64 b0 b1 b2 b3 b4 b5 b6 b7)
  | _ => none

/-- Shape decode (R71): the handled shapes (Write, 4), (Write, 8) and (Read, 0), and the catch-all
violation. No bit of the address takes part (R73). -/
def decodeTxn (t : Transaction) : Instr :=
  match t.direction with
  | .write =>
    match payload32 t.payload with
    | some w => .w32 t.address w
    | none =>
      match payload64 t.payload with
      | some d => .w64 t.address d
      | none => .violation .write t.address t.payload
  | .read =>
    match t.payload with
    | [] => .rd32 t.address
    | b :: bs => .violation .read t.address (b :: bs)

/- ## Format OPREC -/

/-- The kind codes (R76, D4). -/
def kindCode : Kind → Byte
  | .nop => 0
  | .load32 => 1
  | .load64 => 2
  | .store32 => 3
  | .store64 => 4
  | .executeOp => 5

/-- The recognized kind a code names, if any (R76). -/
def kindOfCode (k : Byte) : Option Kind :=
  if k = kindCode .nop then some .nop
  else if k = kindCode .load32 then some .load32
  else if k = kindCode .load64 then some .load64
  else if k = kindCode .store32 then some .store32
  else if k = kindCode .store64 then some .store64
  else if k = kindCode .executeOp then some .executeOp
  else none

/-- `effkind` (R77): an unrecognized kind byte is Nop-equivalent. -/
def effKind (k : Byte) : Kind := (kindOfCode k).getD .nop

/-- Which row of the table a record belongs to (R125 to R131). -/
def decodeRecord (r : Record) : Instr :=
  match kindOfCode r.kind with
  | some .nop => .nop r.operand0 r.operand1 r.operand2
  | some .load32 => .load32 r.operand0 r.operand1 r.operand2
  | some .load64 => .load64 r.operand0 r.operand1 r.operand2
  | some .store32 => .store32 r.operand0 r.operand1 r.operand2
  | some .store64 => .store64 r.operand0 r.operand1 r.operand2
  | some .executeOp => .executeOp r.operand0 r.operand1 r.operand2
  | none => .nopEquiv r.kind r.operand0 r.operand1 r.operand2

/-- The four raw bytes of a record, kind first (R75, D5). -/
def recordBytes (r : Record) : List Byte := [r.kind, r.operand0, r.operand1, r.operand2]

/-- A record from its bytes: exactly four (`REC_BYTES`, R5), anything else is no record. -/
def recordOfBytes : List Byte → Option Record
  | [k, a, b, c] => some ⟨k, a, b, c⟩
  | _ => none

/-- `recword` (R75): the table's 32-bit view of a record. -/
def recword (r : Record) : Word32 := le32 r.kind r.operand0 r.operand1 r.operand2

/- ## Format OPREQ -/

/-- The operation codes (R80, D7). -/
def opCode : Op → Byte
  | .add32 => 0
  | .sub32 => 1
  | .mul32 => 2
  | .div32 => 3
  | .add64 => 4
  | .sub64 => 5
  | .mul64 => 6
  | .div64 => 7
  | .sine64 => 8
  | .cosine64 => 9
  | .tangent64 => 10
  | .squareRoot64 => 11

/-- Every recognized operation, in the order of R80. -/
def allOps : List Op :=
  [.add32, .sub32, .mul32, .div32, .add64, .sub64, .mul64, .div64,
   .sine64, .cosine64, .tangent64, .squareRoot64]

/-- The operation an identifier names, if any (R80). -/
def opOfCode (c : Byte) : Option Op := allOps.find? (fun o => opCode o == c)

/-- Which row of the table a request belongs to (R80, R156). -/
def decodeRequest (r : Request) : Instr :=
  match opOfCode r.op with
  | some .add32 => .add32 r.dst r.src0 r.src1
  | some .sub32 => .sub32 r.dst r.src0 r.src1
  | some .mul32 => .mul32 r.dst r.src0 r.src1
  | some .div32 => .div32 r.dst r.src0 r.src1
  | some .add64 => .add64 r.dst r.src0 r.src1
  | some .sub64 => .sub64 r.dst r.src0 r.src1
  | some .mul64 => .mul64 r.dst r.src0 r.src1
  | some .div64 => .div64 r.dst r.src0 r.src1
  | some .sine64 => .sine64 r.dst r.src0 r.src1
  | some .cosine64 => .cosine64 r.dst r.src0 r.src1
  | some .tangent64 => .tangent64 r.dst r.src0 r.src1
  | some .squareRoot64 => .squareRoot64 r.dst r.src0 r.src1
  | none => .unsupported r.op r.dst r.src0 r.src1

/- ## Format PORT -/

/-- The local-port operations, selected by name (R86). -/
def decodePort : PortCall → Instr
  | .read32 i => .read32 i
  | .read64 i => .read64 i
  | .write32 i v => .write32 i v
  | .write64 i v => .write64 i v
  | .rfClear => .rfClear
  | .osWrite i r => .osWrite i r
  | .osRead i => .osRead i
  | .osClear => .osClear
  | .execute r => .execute r.op r.dst r.src0 r.src1
  | .reset => .reset

/- ## All inputs -/

/-- Why an input is no instruction. -/
inductive Reject where
  /-- "Execute the record in slot n" (R133, U7): no operation of the block does that. -/
  | recordExecution (index : Nat)
  /-- "Run the program in the store" (R133, U7). -/
  | programExecution
  deriving DecidableEq, Repr

/-- What decoding an input yields. -/
inductive Decoded where
  | instr (i : Instr)
  | rejected (r : Reject)
  deriving DecidableEq, Repr

/-- Decoding, total on every input; the two forms the spec refuses are rejected by name. -/
def decode : Input → Decoded
  | .txn t => .instr (decodeTxn t)
  | .record r => .instr (decodeRecord r)
  | .request r => .instr (decodeRequest r)
  | .port c => .instr (decodePort c)
  | .runSlot n => .rejected (.recordExecution n)
  | .runStore => .rejected .programExecution

/- ## The encoder -/

/-- The input that a well-formed instruction is decoded from, by the tables of 30_encoding.md. -/
def encode : Instr → Input
  | .w32 a v => .txn ⟨.write, a, bytesLe32 v⟩
  | .w64 a v => .txn ⟨.write, a, bytesLe64 v⟩
  | .rd32 a => .txn ⟨.read, a, []⟩
  | .violation d a p => .txn ⟨d, a, p⟩
  | .nop x y z => .record ⟨kindCode .nop, x, y, z⟩
  | .load32 x y z => .record ⟨kindCode .load32, x, y, z⟩
  | .load64 x y z => .record ⟨kindCode .load64, x, y, z⟩
  | .store32 x y z => .record ⟨kindCode .store32, x, y, z⟩
  | .store64 x y z => .record ⟨kindCode .store64, x, y, z⟩
  | .executeOp d x y => .record ⟨kindCode .executeOp, d, x, y⟩
  | .nopEquiv k x y z => .record ⟨k, x, y, z⟩
  | .add32 d x y => .request ⟨opCode .add32, d, x, y⟩
  | .sub32 d x y => .request ⟨opCode .sub32, d, x, y⟩
  | .mul32 d x y => .request ⟨opCode .mul32, d, x, y⟩
  | .div32 d x y => .request ⟨opCode .div32, d, x, y⟩
  | .add64 d x y => .request ⟨opCode .add64, d, x, y⟩
  | .sub64 d x y => .request ⟨opCode .sub64, d, x, y⟩
  | .mul64 d x y => .request ⟨opCode .mul64, d, x, y⟩
  | .div64 d x y => .request ⟨opCode .div64, d, x, y⟩
  | .sine64 d x y => .request ⟨opCode .sine64, d, x, y⟩
  | .cosine64 d x y => .request ⟨opCode .cosine64, d, x, y⟩
  | .tangent64 d x y => .request ⟨opCode .tangent64, d, x, y⟩
  | .squareRoot64 d x y => .request ⟨opCode .squareRoot64, d, x, y⟩
  | .unsupported o d x y => .request ⟨o, d, x, y⟩
  | .read32 i => .port (.read32 i)
  | .read64 i => .port (.read64 i)
  | .write32 i v => .port (.write32 i v)
  | .write64 i v => .port (.write64 i v)
  | .rfClear => .port .rfClear
  | .osWrite i r => .port (.osWrite i r)
  | .osRead i => .port (.osRead i)
  | .osClear => .port .osClear
  | .execute o d x y => .port (.execute ⟨o, d, x, y⟩)
  | .reset => .port .reset

/- ## Words as spec/opcode_table.json numbers them -/

/-- The transaction a table selector stands for (R87): bit 8 is Write, bits 7..0 the payload length;
address and payload bytes are operands the selector does not hold, so they are zero. -/
def tableTxn (sel : Nat) : Transaction :=
  ⟨if sel / 256 % 2 = 1 then .write else .read, 0, List.replicate (sel % 256) 0⟩

/-- The record a 32-bit table word stands for (R75). -/
def tableRecord (w : Nat) : Record :=
  let b : Word32 := BitVec.ofNat 32 w
  ⟨byteOf 32 0 b, byteOf 32 1 b, byteOf 32 2 b, byteOf 32 3 b⟩

/-- The local-port operation of a table ordinal (R86), its operands zero. -/
def tablePort (ordinal : Nat) : Option PortCall :=
  [PortCall.read32 0, .read64 0, .write32 0 0, .write64 0 0, .rfClear, .osWrite 0 ⟨0, 0, 0, 0⟩,
   .osRead 0, .osClear, .execute ⟨0, 0, 0, 0⟩, .reset][ordinal]?

/-- The input a table word stands for. The table's selectors of the four formats overlap, because
the format is not in the bits (R86, R87), so the width tells the format apart as far as it can (log
entry 8): up to 4 bits a PORT ordinal, up to 8 an operation identifier, up to 16 a BUS selector, up
to 32 an opcode record. -/
def tableInput (nbits w : Nat) : Option Input :=
  if nbits ≤ 4 then (tablePort (w % 16)).map .port
  else if nbits ≤ 8 then some (.request ⟨BitVec.ofNat 8 w, 0, 0, 0⟩)
  else if nbits ≤ 16 then some (.txn (tableTxn (w % 512)))
  else if nbits ≤ 32 then some (.record (tableRecord w))
  else none

/-- The instruction this decoder reads from a table word. -/
def decodeTableWord (nbits w : Nat) : Option Instr :=
  match (tableInput nbits w).map decode with
  | some (.instr i) => some i
  | _ => none

end Sys2Proof
end

