-- ==== Sys2Proof/Machine/State.lean ====
section
/-! DEFINITION. The state of the block (10_state.md), what it puts out (43_bus_protocol.md R190,
R192), why a step can stop, and the state after startup or reset (R21). Plain data throughout. -/

namespace Sys2Proof.Machine

/-- The transaction phase (R14): the two values in which the block can be observed. `Responded` and
`Dropped` last no longer than the completion step and are the outcome labels below. -/
inductive Phase where
  | idle
  | busyProcessing
  deriving DecidableEq, Repr

/-- The status of an Operation Result (R82). -/
inductive OpStatus where
  | ok
  | srcRange
  | dstRange
  | unsupportedOp
  deriving DecidableEq, Repr

/-- Why a transaction was dropped (R192). -/
inductive DropReason where
  | unsupportedShape
  | bounds
  deriving DecidableEq, Repr

/-- The outcome label of a transaction (R192, D16, D17). -/
inductive Label where
  | writeDone
  | responded (data : List Byte)
  | dropped (reason : DropReason)
  deriving DecidableEq, Repr

/-- What a local-port operation returns to its caller (R86, R205); `none` inside an option is
`absent` (D21). -/
inductive PortResult where
  | word32 (value : Option Word32)
  | word64 (value : Option Word64)
  | success (ok : Bool)
  | record (value : Option Record)
  | status (code : OpStatus)
  | decoded (kind : Kind) (operand0 operand1 operand2 : Byte)
  | done
  deriving DecidableEq, Repr

/-- What the block puts out, in the order it puts it out. -/
inductive Event where
  /-- `set_busy(b)` (R190, R199). -/
  | setBusy (b : Bool)
  /-- `respond(t, data)` (R190, R74). -/
  | respond (t : Transaction) (data : List Byte)
  /-- The outcome label of a completed transaction (R192). -/
  | outcome (l : Label)
  /-- The value a local-port operation returns to its caller (R205). -/
  | result (r : PortResult)
  deriving DecidableEq, Repr

/-- The Opcode Store's contents (R12): (slot index, record) pairs in the canonical form of
`Memory.wf`; a slot not listed holds the cleared record. -/
abbrev Memory := List (Nat × Record)

/-- The whole state. The first six fields are the spec's (R10 to R16); the last three are the
model's own and stand for the outside world (log entries 2, 3, 4). -/
structure State where
  /-- The 32-bit register space (R10). -/
  r32 : Vector Word32 Config.nReg32
  /-- The 64-bit register space (R11). -/
  r64 : Vector Word64 Config.nReg64
  /-- The Opcode Store (R12). -/
  slot : Memory
  /-- The transaction phase (R14). -/
  phase : Phase
  /-- The busy output (R15). -/
  busy : Bool
  /-- The latched transaction (R16). -/
  cur : Option Transaction
  /-- What `poll()` and the local port will present, oldest first (R54, R200, R205; log entry 2). -/
  inputs : List Input
  /-- What the block has put out, oldest first (R192; log entry 3). -/
  events : List Event
  /-- How many dispatcher operations have succeeded: the index of the next NaN draw (R168; log
  entry 4). -/
  draws : Nat
  deriving DecidableEq, Repr

/-- The reasons a step can stop with a fault. The block itself never does (R220, R191). -/
inductive Fault where
  /-- Raised by `fetch` in the phase BusyProcessing when no transaction is latched: R16 excludes that
  state and no run reaches it. Safe: the model stops where the spec describes nothing. -/
  | noLatchedTransaction
  deriving DecidableEq, Repr

/-- The forms the model refuses by name. -/
inductive Refusal where
  /-- Raised by an arm of `exec` whose instruction has no meaning yet. Safe. -/
  | notModelled (mnemonic : String)
  /-- Raised by `fetch` on "execute the record in slot n" (R133, D9, U7, U8). Safe: the spec gives a
  record no execution. -/
  | recordExecution (index : Nat)
  /-- Raised by `fetch` on "run the program in the store" (R133, U7). Safe. -/
  | programExecution
  /-- Raised by a local-port operation while a transaction is being processed (R205, R263, U12); the
  step never asks for one. Safe. -/
  | portWhileBusy
  /-- Raised by a transaction presented while another one is being processed (R258, U9); the step
  never asks for one. Safe. -/
  | overlappingTransaction
  deriving DecidableEq, Repr

/-- The cleared record: kind Nop (code 0, D4), operands 0, 0, 0 (R122). -/
abbrev clearedRecord : Record := ⟨0, 0, 0, 0⟩

/-- The machine after startup and after reset (R21, R250): both register spaces zero, every slot
cleared, Idle, not busy, nothing latched; nothing presented, nothing put out, no draw taken. -/
def State.reset : State where
  r32 := Vector.replicate Config.nReg32 0
  r64 := Vector.replicate Config.nReg64 0
  slot := []
  phase := .idle
  busy := false
  cur := none
  inputs := []
  events := []
  draws := 0

end Sys2Proof.Machine
end

