-- ==== Sys2Proof/Machine/Memory.lean ====
section
/-! DEFINITION. The Opcode Store's memory (R12): reading, writing and the canonical form. The unit is
the slot, since there is no byte-addressed view of any space (20_memory.md R40). -/

namespace Sys2Proof.Machine

/-- The record a slot holds; an unlisted slot holds the cleared record (R21, R121). -/
def Memory.read : Memory → Nat → Record
  | [], _ => clearedRecord
  | (j, r) :: m, i => if i = j then r else Memory.read m i

/-- `(i, r)` in front of `m`, unless `r` is what an unlisted slot holds. -/
def Memory.put (i : Nat) (r : Record) (m : Memory) : Memory :=
  if r = clearedRecord then m else (i, r) :: m

/-- `slot[i] <- r` (R120), keeping the canonical form. -/
def Memory.write : Memory → Nat → Record → Memory
  | [], i, r => Memory.put i r []
  | (j, q) :: m, i, r =>
    if i < j then Memory.put i r ((j, q) :: m)
    else if i = j then Memory.put i r m
    else (j, q) :: Memory.write m i r

/-- The canonical form: slot indices strictly rising and below 1024, no cleared record listed. -/
abbrev Memory.wf (m : Memory) : Prop :=
  (m.map Prod.fst).Pairwise (· < ·) ∧ ∀ c ∈ m, c.1 < Config.nSlot ∧ c.2 ≠ clearedRecord

end Sys2Proof.Machine
end

