-- ==== Sys2Proof/Machine/Ops.lean ====
section
/-! DEFINITION. The named operations over the state: the Register File (R100 to R104), the Opcode
Store (R120 to R122), what the block puts out, the transaction state machine (R191), and the
admission of local-port operations (R205). The block has no exception to take and none to return
from (60_exceptions.md R220, R228, R229): in their place stand `answer`, by which a failure is a
returned value, and `complete`, by which a failed transaction is dropped. -/

namespace Sys2Proof.Machine

/- ## The Register File -/

/-- `read32(index)` (R100): `absent` outside 0 to 255, never clamped or wrapped. -/
def read32 (s : State) (index : Nat) : Option Word32 :=
  if h : index < Config.nReg32 then some s.r32[index] else none

/-- `read64(index)` (R101). -/
def read64 (s : State) (index : Nat) : Option Word64 :=
  if h : index < Config.nReg64 then some s.r64[index] else none

/-- `write32(index, value)` (R102): the state after a success, `none` where the write is rejected. -/
def write32 (index : Nat) (value : Word32) (s : State) : Option State :=
  if h : index < Config.nReg32 then some { s with r32 := s.r32.set index value h } else none

/-- `write64(index, value)` (R103). -/
def write64 (index : Nat) (value : Word64) (s : State) : Option State :=
  if h : index < Config.nReg64 then some { s with r64 := s.r64.set index value h } else none

/-- `rf.clear` (R104): both register spaces all-zero. -/
def clearRegisters (s : State) : State :=
  { s with r32 := Vector.replicate Config.nReg32 0, r64 := Vector.replicate Config.nReg64 0 }

/- ## The Opcode Store -/

/-- `os.read(index)` (R121). -/
def readSlot (s : State) (index : Nat) : Option Record :=
  if index < Config.nSlot then some (Memory.read s.slot index) else none

/-- `os.write(index, record)` (R120): `none` where the write is rejected. -/
def writeSlot (index : Nat) (record : Record) (s : State) : Option State :=
  if index < Config.nSlot then some { s with slot := Memory.write s.slot index record } else none

/-- `os.clear` (R122): every slot the cleared record. -/
def clearSlots (s : State) : State := { s with slot := [] }

/- ## What the block puts out -/

/-- One more event. -/
def emit (e : Event) (s : State) : State := { s with events := s.events ++ [e] }

/-- A local-port operation returns its value to its caller (R205) and changes nothing else. Every
failure of the local port is such a value (R220, R221). -/
def answer (r : PortResult) (s : State) : Host.Outcome State Fault Refusal :=
  .next (emit (.result r) s)

/-- A write's `true` or `false` (R102, R103, R120): the written state, or the old one. -/
def answerWrite (written : Option State) (s : State) : Host.Outcome State Fault Refusal :=
  match written with
  | some t => answer (.success true) t
  | none => answer (.success false) s

/-- Local-port operations are admitted only in Idle (R205, R255, R263). -/
def atPort (body : State → Host.Outcome State Fault Refusal) (s : State) :
    Host.Outcome State Fault Refusal :=
  match s.phase with
  | .idle => body s
  | .busyProcessing => .refused .portWhileBusy

/- ## The transaction state machine (R191) -/

/-- Accept: Idle to BusyProcessing, the transaction latched, `set_busy(true)` (R191 row 2). -/
def accept (t : Transaction) (s : State) : State :=
  emit (.setBusy true) { s with phase := .busyProcessing, busy := true, cur := some t }

/-- Complete: the outcome label, `set_busy(false)`, back to Idle (R191 last row, R192, R199). -/
def complete (l : Label) (s : State) : State :=
  emit (.setBusy false)
    (emit (.outcome l) { s with phase := .idle, busy := false, cur := none })

/-- A whole transaction around its access: in BusyProcessing it is the completion of the latched
transaction; in Idle it is accept and complete fused into one step, as R193 (D27) allows. A
transaction presented while another one is processed has no meaning (R258, U9). -/
def transact (t : Transaction) (access : State → State × Label) (s : State) :
    Host.Outcome State Fault Refusal :=
  match s.phase with
  | .idle =>
    let (s', l) := access (accept t s)
    .next (complete l s')
  | .busyProcessing =>
    if s.cur = some t then
      let (s', l) := access s
      .next (complete l s')
    else .refused .overlappingTransaction

/-- A bus write's outcome: `WriteDone`, or `Dropped(Bounds)` where the write is rejected, which an
8-bit address never is (R194, R195, R203, D28). -/
def writeOutcome (written : Option State) (s : State) : State × Label :=
  match written with
  | some t => (t, .writeDone)
  | none => (s, .dropped .bounds)

/-- The reset event (R251): both clears, Idle, not busy, nothing latched; the queue behind `poll()`
is not touched (R256). -/
def resetBlock (s : State) : State :=
  { clearSlots (clearRegisters s) with phase := .idle, busy := false, cur := none }

end Sys2Proof.Machine
end

