-- ==== Sys2Proof/Machine/Bus.lean ====
section
/-! DEFINITION. The four BUS rows (43_bus_protocol.md R194 to R197): each is one whole transaction,
its access between `accept` and `complete`. -/

namespace Sys2Proof.Machine

/-- W32 (R194): `r32[address] <- le32(payload)`, no response. -/
def execW32 (address : Byte) (value : Word32) (s : State) : Host.Outcome State Fault Refusal :=
  transact ⟨.write, address, bytesLe32 value⟩
    (fun s => writeOutcome (write32 address.toNat value s) s) s

/-- W64 (R195): `r64[address] <- le64(payload)`, no response. -/
def execW64 (address : Byte) (value : Word64) (s : State) : Host.Outcome State Fault Refusal :=
  transact ⟨.write, address, bytesLe64 value⟩
    (fun s => writeOutcome (write64 address.toNat value s) s) s

/-- RD32 (R196): respond with `bytes_le32(r32[address])`; dropped if absent, which an 8-bit address
never is (R202). -/
def execRd32 (address : Byte) (s : State) : Host.Outcome State Fault Refusal :=
  let t : Transaction := ⟨.read, address, []⟩
  transact t
    (fun s =>
      match read32 s address.toNat with
      | some w => (emit (.respond t (bytesLe32 w)) s, .responded (bytesLe32 w))
      | none => (s, .dropped .bounds)) s

/-- VIOLATION (R197): dropped; no payload byte is used, nothing is read or written. -/
def execViolation (direction : Direction) (address : Byte) (payload : List Byte) (s : State) :
    Host.Outcome State Fault Refusal :=
  transact ⟨direction, address, payload⟩ (fun s => (s, .dropped .unsupportedShape)) s

end Sys2Proof.Machine
end

