-- ==== Sys2Proof/Machine/Float.lean ====
section
/-! DEFINITION. Floating point (42_operation_dispatcher.md part 3). A finite value is counted exactly,
as a natural number of UNITS of 2^-(bias + p): every finite value of a format is a whole number of
them, so sums, products, quotients and roots are exact integers or quotients of integers until the
one rounding of R162. -/

namespace Sys2Proof.Machine

/-- A binary interchange format: widths of the exponent and of the fraction field (R160, R161). -/
structure FloatFormat where
  expBits : Nat
  fracBits : Nat
  deriving DecidableEq, Repr

/-- binary32 (R160). -/
def binary32 : FloatFormat := ⟨8, 23⟩

/-- binary64 (R161). -/
def binary64 : FloatFormat := ⟨11, 52⟩

/-- The all-ones exponent field: 255 or 2047. -/
def FloatFormat.maxExp (F : FloatFormat) : Nat := 2 ^ F.expBits - 1

/-- The exponent bias: 127 or 1023. -/
def FloatFormat.bias (F : FloatFormat) : Nat := 2 ^ (F.expBits - 1) - 1

/-- A value is a number of units of `2 ^ -(F.unitExp)`: 150 or 1075 (R160, R161). -/
def FloatFormat.unitExp (F : FloatFormat) : Nat := F.bias + F.fracBits

/-- The datum a bit pattern encodes (R8). `finite neg m e` is the non-zero value of sign `neg` and
magnitude `m * 2 ^ e` units, `e` being the exponent field (1 for a subnormal). -/
inductive Datum where
  | nan
  | infinity (neg : Bool)
  | zero (neg : Bool)
  | finite (neg : Bool) (m e : Nat)
  deriving DecidableEq, Repr

/-- The tables of R160 and R161: sign, exponent field, fraction field. -/
def FloatFormat.unpack (F : FloatFormat) (w : Nat) : Datum :=
  let neg : Bool := w / 2 ^ (F.expBits + F.fracBits) % 2 == 1
  let e := w / 2 ^ F.fracBits % 2 ^ F.expBits
  let f := w % 2 ^ F.fracBits
  if e = 0 then
    if f = 0 then .zero neg else .finite neg f 1
  else if e = F.maxExp then
    if f = 0 then .infinity neg else .nan
  else .finite neg (2 ^ F.fracBits + f) e

/-- A pattern from its three fields. -/
def FloatFormat.fields (F : FloatFormat) (neg : Bool) (e f : Nat) : Nat :=
  neg.toNat * 2 ^ (F.expBits + F.fracBits) + e * 2 ^ F.fracBits + f

/-- The pattern of a datum (R160 to R162); `nanFields` are the sign and fraction of the draw that
stands for a NaN (R168). -/
def FloatFormat.pack (F : FloatFormat) (nanFields : Bool × Nat) : Datum → Nat
  | .nan => F.fields nanFields.1 F.maxExp nanFields.2
  | .infinity neg => F.fields neg F.maxExp 0
  | .zero neg => F.fields neg 0 0
  | .finite neg m e =>
    if m < 2 ^ F.fracBits then F.fields neg 0 m else F.fields neg e (m - 2 ^ F.fracBits)

/- ## Rounding (R162) -/

/-- The integer nearest a number whose integer part is `k`, given how the number compares with
`k + 1/2`: to even at a tie (R162, D11). -/
def nearestEven (k : Nat) : Ordering → Nat
  | .lt => k
  | .gt => k + 1
  | .eq => if k % 2 = 0 then k else k + 1

/-- The integer nearest `num / den`, ties to even. -/
def roundQuotient (num den : Nat) : Nat :=
  nearestEven (num / den) (compare (2 * num) ((2 * (num / den) + 1) * den))

/-- The end of `rnd` (R162): `m` counts of `2 ^ e` units become zero, infinity or a finite datum;
`m = 2 ^ (p + 1)` is the next power of two. -/
def FloatFormat.deliver (F : FloatFormat) (neg : Bool) (m e : Nat) : Datum :=
  if m = 0 then .zero neg
  else if 2 ^ (F.maxExp + F.fracBits) ≤ m * 2 ^ e then .infinity neg
  else if m = 2 ^ (F.fracBits + 1) then .finite neg (2 ^ F.fracBits) (e + 1)
  else .finite neg m e

/-- `rnd` (R162) of the non-zero value of sign `neg` and magnitude `num / den` units. `e` is
`E + bias`, and `2 ^ e` units are the spacing `q`. -/
def FloatFormat.rnd (F : FloatFormat) (neg : Bool) (num den : Nat) : Datum :=
  let e := max ((num / den).log2 - F.fracBits) 1
  F.deliver neg (roundQuotient num (den * 2 ^ e)) e

/- ## The case tables (R163 to R166) -/

/-- The magnitude of a datum in units; zero for ±0. -/
def Datum.units : Datum → Nat
  | .finite _ m e => m * 2 ^ e
  | _ => 0

/-- The value of a zero or finite datum in units, with its sign. -/
def Datum.value : Datum → Int
  | .finite true m e => -((m * 2 ^ e : Nat) : Int)
  | .finite false m e => ((m * 2 ^ e : Nat) : Int)
  | _ => 0

/-- `neg` (R163): flips the sign of a non-NaN datum. -/
def Datum.negate : Datum → Datum
  | .nan => .nan
  | .infinity n => .infinity !n
  | .zero n => .zero !n
  | .finite n m e => .finite (!n) m e

/-- The sum of two data of which at least one is finite and non-zero (R163 rows 7, 8). -/
def FloatFormat.addFinite (F : FloatFormat) (a b : Datum) : Datum :=
  let x := a.value + b.value
  if x = 0 then .zero false else F.rnd (decide (x < 0)) x.natAbs 1

/-- `fadd` (R163). -/
def FloatFormat.add (F : FloatFormat) (a b : Datum) : Datum :=
  match a, b with
  | .nan, _ => .nan
  | _, .nan => .nan
  | .infinity m, .infinity n => if m = n then .infinity m else .nan
  | .infinity m, _ => .infinity m
  | _, .infinity n => .infinity n
  | .zero m, .zero n => if m = n then .zero m else .zero false
  | a, b => F.addFinite a b

/-- `fsub` (R163): `fadd(a, neg(b))`. -/
def FloatFormat.sub (F : FloatFormat) (a b : Datum) : Datum := F.add a b.negate

/-- `fmul` (R164). -/
def FloatFormat.mul (F : FloatFormat) (a b : Datum) : Datum :=
  match a, b with
  | .nan, _ => .nan
  | _, .nan => .nan
  | .infinity _, .zero _ => .nan
  | .zero _, .infinity _ => .nan
  | .infinity m, .infinity n => .infinity (m ^^ n)
  | .infinity m, .finite n _ _ => .infinity (m ^^ n)
  | .finite m _ _, .infinity n => .infinity (m ^^ n)
  | .zero m, .zero n => .zero (m ^^ n)
  | .zero m, .finite n _ _ => .zero (m ^^ n)
  | .finite m _ _, .zero n => .zero (m ^^ n)
  | .finite m ma ea, .finite n mb eb =>
    F.rnd (m ^^ n) ((ma * 2 ^ ea) * (mb * 2 ^ eb)) (2 ^ F.unitExp)

/-- `fdiv` (R165), `a` the dividend and `b` the divisor. -/
def FloatFormat.div (F : FloatFormat) (a b : Datum) : Datum :=
  match a, b with
  | .nan, _ => .nan
  | _, .nan => .nan
  | .zero _, .zero _ => .nan
  | .infinity _, .infinity _ => .nan
  | .infinity m, .zero n => .infinity (m ^^ n)
  | .infinity m, .finite n _ _ => .infinity (m ^^ n)
  | .zero m, .infinity n => .zero (m ^^ n)
  | .finite m _ _, .infinity n => .zero (m ^^ n)
  | .finite m _ _, .zero n => .infinity (m ^^ n)
  | .zero m, .finite n _ _ => .zero (m ^^ n)
  | .finite m ma ea, .finite n mb eb =>
    F.rnd (m ^^ n) ((ma * 2 ^ ea) * 2 ^ F.unitExp) (mb * 2 ^ eb)

/-- The integer square root, one bit at a time: the largest `r` below `2 ^ bits` more than the bits
already set with `r * r ≤ n`. -/
def isqrtFrom (n : Nat) : Nat → Nat → Nat
  | 0, r => r
  | bits + 1, r =>
    isqrtFrom n bits (if (r + 2 ^ bits) * (r + 2 ^ bits) ≤ n then r + 2 ^ bits else r)

/-- The integer part of the square root of `n`, for `n < 4 ^ bits`. -/
def isqrt (bits n : Nat) : Nat := isqrtFrom n bits 0

/-- The correctly rounded root of a magnitude of `u` units (R166 row 5): the root of `u` units is
the root of `u * 2 ^ unitExp`, counted in units. -/
def FloatFormat.sqrtUnits (F : FloatFormat) (u : Nat) : Datum :=
  let n := u * 2 ^ F.unitExp
  let e := max (n.log2 / 2 - F.fracBits) 1
  let k := isqrt (F.fracBits + 2) (n / 4 ^ e)
  F.deliver false (nearestEven k (compare (4 * n) ((2 * k + 1) * (2 * k + 1) * 4 ^ e))) e

/-- `fsqrt` (R166). -/
def FloatFormat.sqrt (F : FloatFormat) : Datum → Datum
  | .nan => .nan
  | .zero n => .zero n
  | .infinity false => .infinity false
  | .infinity true => .nan
  | .finite true _ _ => .nan
  | .finite false m e => F.sqrtUnits (m * 2 ^ e)

end Sys2Proof.Machine
end

