-- ==== Sys2Proof/Machine/Operands.lean ====
section
/-! DEFINITION. The operand forms: the raw bit reinterpretation between register patterns and
IEEE-754 data (R8, R141, R160, R161, R168), and the three templates of the dispatcher, which fetch
the sources, compute and write the destination back (R141 to R143, R157 to R159). -/

namespace Sys2Proof.Machine

/-- `f32(w)` (R8, R160): raw reinterpretation, no numeric conversion. -/
def f32 (w : Word32) : Datum := binary32.unpack w.toNat

/-- `f64(w)` (R8, R161). -/
def f64 (w : Word64) : Datum := binary64.unpack w.toNat

/-- `bits32(x)` (R8): the pattern of `x`; for a NaN the `n`-th draw (R168). -/
def bits32 (n : Nat) (x : Datum) : Word32 :=
  let d := Config.nanDraw32 n
  BitVec.ofNat 32 (binary32.pack (d.1, d.2.val + 1) x)

/-- `bits64(x)` (R8, R168). -/
def bits64 (n : Nat) (x : Datum) : Word64 :=
  let d := Config.nanDraw64 n
  BitVec.ofNat 64 (binary64.pack (d.1, d.2.val + 1) x)

/-- The result of a transcendental (R170): the configuration function's, and a draw where that is a
NaN (R168). -/
def transcendental (G : Word64 → Word64) (n : Nat) (a : Word64) : Word64 :=
  if f64 (G a) = .nan then bits64 n .nan else G a

/-- The write-back (R157 points 3 and 4): `Ok`, or `Fail(DST_RANGE)` with nothing changed. A
success takes the next draw index. -/
def writeBack (written : Option State) (s : State) : Host.Outcome State Fault Refusal :=
  match written with
  | some t => answer (.status .ok) { t with draws := s.draws + 1 }
  | none => answer (.status .dstRange) s

/-- Template `bin32(F)` (R141). -/
def bin32 (F : Datum → Datum → Datum) (dst src0 src1 : Nat) (s : State) :
    Host.Outcome State Fault Refusal :=
  match read32 s src0, read32 s src1 with
  | some a, some b => writeBack (write32 dst (bits32 s.draws (F (f32 a) (f32 b))) s) s
  | _, _ => answer (.status .srcRange) s

/-- Template `bin64(F)` (R142). -/
def bin64 (F : Datum → Datum → Datum) (dst src0 src1 : Nat) (s : State) :
    Host.Outcome State Fault Refusal :=
  match read64 s src0, read64 s src1 with
  | some a, some b => writeBack (write64 dst (bits64 s.draws (F (f64 a) (f64 b))) s) s
  | _, _ => answer (.status .srcRange) s

/-- Template `un64(G)` (R143): source1 is neither read nor bounds-checked. `G` is given the draw
index, for a NaN result. -/
def un64 (G : Nat → Word64 → Word64) (dst src0 : Nat) (s : State) :
    Host.Outcome State Fault Refusal :=
  match read64 s src0 with
  | some a => writeBack (write64 dst (G s.draws a) s) s
  | none => answer (.status .srcRange) s

/-- `G` of SquareRoot64 (R143, R155). -/
def root64 (n : Nat) (a : Word64) : Word64 := bits64 n (binary64.sqrt (f64 a))

end Sys2Proof.Machine
end

