-- ==== Sys2Proof/Machine/Dispatcher.lean ====
section
/-! DEFINITION. The thirteen OPREQ rows (42_operation_dispatcher.md R144 to R156): a request at the
dispatcher, reached through the local port only (R204), so admitted only in Idle (R205). The
requests' failures are those of R157 and nothing else; no arithmetic condition is one (R225). -/

namespace Sys2Proof.Machine

/-- Add32: `r32[dst] <- r32[src0] + r32[src1]` (R144). -/
def execAdd32 (dst src0 src1 : Nat) (s : State) : Host.Outcome State Fault Refusal :=
  atPort (bin32 binary32.add dst src0 src1) s

/-- Sub32: `r32[dst] <- r32[src0] - r32[src1]`, source0 the minuend (D14) (R145). -/
def execSub32 (dst src0 src1 : Nat) (s : State) : Host.Outcome State Fault Refusal :=
  atPort (bin32 binary32.sub dst src0 src1) s

/-- Mul32 (R146). -/
def execMul32 (dst src0 src1 : Nat) (s : State) : Host.Outcome State Fault Refusal :=
  atPort (bin32 binary32.mul dst src0 src1) s

/-- Div32: source0 the dividend; a zero divisor is no failure (R147). -/
def execDiv32 (dst src0 src1 : Nat) (s : State) : Host.Outcome State Fault Refusal :=
  atPort (bin32 binary32.div dst src0 src1) s

/-- Add64 (R148). -/
def execAdd64 (dst src0 src1 : Nat) (s : State) : Host.Outcome State Fault Refusal :=
  atPort (bin64 binary64.add dst src0 src1) s

/-- Sub64: source0 minus source1 (D14) (R149). -/
def execSub64 (dst src0 src1 : Nat) (s : State) : Host.Outcome State Fault Refusal :=
  atPort (bin64 binary64.sub dst src0 src1) s

/-- Mul64 (R150). -/
def execMul64 (dst src0 src1 : Nat) (s : State) : Host.Outcome State Fault Refusal :=
  atPort (bin64 binary64.mul dst src0 src1) s

/-- Div64: source0 the dividend (R151). -/
def execDiv64 (dst src0 src1 : Nat) (s : State) : Host.Outcome State Fault Refusal :=
  atPort (bin64 binary64.div dst src0 src1) s

/-- Sine64 (R170); source1 is ignored (R81) (R152). -/
def execSine64 (dst src0 _src1 : Nat) (s : State) : Host.Outcome State Fault Refusal :=
  atPort (un64 (transcendental Config.sin64) dst src0) s

/-- Cosine64 (R170); source1 is ignored (R81) (R153). -/
def execCosine64 (dst src0 _src1 : Nat) (s : State) : Host.Outcome State Fault Refusal :=
  atPort (un64 (transcendental Config.cos64) dst src0) s

/-- Tangent64 (R170); source1 is ignored (R81) (R154). -/
def execTangent64 (dst src0 _src1 : Nat) (s : State) : Host.Outcome State Fault Refusal :=
  atPort (un64 (transcendental Config.tan64) dst src0) s

/-- SquareRoot64 (R166): a negative argument is no failure; source1 is ignored (R81) (R155). -/
def execSquareRoot64 (dst src0 _src1 : Nat) (s : State) : Host.Outcome State Fault Refusal :=
  atPort (un64 root64 dst src0) s

/-- UNSUPPORTED (R156): `Fail(UNSUPPORTED_OP)`, whatever the indices (R157). -/
def execUnsupported (_op : Byte) (_dst _src0 _src1 : Nat) (s : State) :
    Host.Outcome State Fault Refusal :=
  atPort (answer (.status .unsupportedOp)) s

/-- The control multiplexer (R140): the operation an identifier selects, with its template. -/
def dispatch (r : Request) : State → Host.Outcome State Fault Refusal :=
  match opOfCode r.op with
  | some .add32 => bin32 binary32.add r.dst r.src0 r.src1
  | some .sub32 => bin32 binary32.sub r.dst r.src0 r.src1
  | some .mul32 => bin32 binary32.mul r.dst r.src0 r.src1
  | some .div32 => bin32 binary32.div r.dst r.src0 r.src1
  | some .add64 => bin64 binary64.add r.dst r.src0 r.src1
  | some .sub64 => bin64 binary64.sub r.dst r.src0 r.src1
  | some .mul64 => bin64 binary64.mul r.dst r.src0 r.src1
  | some .div64 => bin64 binary64.div r.dst r.src0 r.src1
  | some .sine64 => un64 (transcendental Config.sin64) r.dst r.src0
  | some .cosine64 => un64 (transcendental Config.cos64) r.dst r.src0
  | some .tangent64 => un64 (transcendental Config.tan64) r.dst r.src0
  | some .squareRoot64 => un64 root64 r.dst r.src0
  | none => answer (.status .unsupportedOp)

end Sys2Proof.Machine
end

