-- ==== Sys2Proof/Machine/Port.lean ====
section
/-! DEFINITION. The ten PORT rows (30_encoding.md R86): the component contracts as the local port
offers them, and the reset event. Each is admitted only in Idle, is one atomic step, returns its
value to its caller and calls neither `respond` nor `set_busy` (R205). -/

namespace Sys2Proof.Machine

/-- read32 (R100). -/
def execRead32 (index : Nat) (s : State) : Host.Outcome State Fault Refusal :=
  atPort (fun s => answer (.word32 (read32 s index)) s) s

/-- read64 (R101). -/
def execRead64 (index : Nat) (s : State) : Host.Outcome State Fault Refusal :=
  atPort (fun s => answer (.word64 (read64 s index)) s) s

/-- write32 (R102). -/
def execWrite32 (index : Nat) (value : Word32) (s : State) : Host.Outcome State Fault Refusal :=
  atPort (fun s => answerWrite (write32 index value s) s) s

/-- write64 (R103). -/
def execWrite64 (index : Nat) (value : Word64) (s : State) : Host.Outcome State Fault Refusal :=
  atPort (fun s => answerWrite (write64 index value s) s) s

/-- rf.clear (R104): returns nothing and cannot fail. -/
def execRfClear (s : State) : Host.Outcome State Fault Refusal :=
  atPort (fun s => answer .done (clearRegisters s)) s

/-- os.write (R120). -/
def execOsWrite (index : Nat) (record : Record) (s : State) : Host.Outcome State Fault Refusal :=
  atPort (fun s => answerWrite (writeSlot index record s) s) s

/-- os.read (R121). -/
def execOsRead (index : Nat) (s : State) : Host.Outcome State Fault Refusal :=
  atPort (fun s => answer (.record (readSlot s index)) s) s

/-- os.clear (R122): returns nothing and cannot fail. -/
def execOsClear (s : State) : Host.Outcome State Fault Refusal :=
  atPort (fun s => answer .done (clearSlots s)) s

/-- execute (R140): the control multiplexer on the request. -/
def execExecute (op : Byte) (dst src0 src1 : Nat) (s : State) :
    Host.Outcome State Fault Refusal :=
  atPort (dispatch ⟨op, dst, src0, src1⟩) s

/-- reset (R251): taken only in Idle (R255), returns nothing and cannot fail. -/
def execReset (s : State) : Host.Outcome State Fault Refusal :=
  atPort (fun s => answer .done (resetBlock s)) s

end Sys2Proof.Machine
end

