-- ==== Sys2Proof/Machine/Records.lean ====
section
/-! DEFINITION. The seven OPREC rows (41_opcode_store.md R125 to R131). What the block does with a
record of a kind is what its decoder does (R124): yield the kind and the three operand bytes, a
pure function that touches no state. NONE OF THESE IS THE EXECUTION OF A RECORD: no step of the
block executes one (R133), the kinds Load32 to Store64 have no execution meaning (D10), and the
inputs that ask for it are refused by name in Fetch.lean. -/

namespace Sys2Proof.Machine

/-- The record decoder (R124, R77). -/
def decodedFields (r : Record) : PortResult :=
  .decoded (effKind r.kind) r.operand0 r.operand1 r.operand2

/-- Nop (R125): kind code 0; no state is read or written. -/
def execNop (operand0 operand1 operand2 : Byte) (s : State) : Host.Outcome State Fault Refusal :=
  atPort (answer (decodedFields ⟨kindCode .nop, operand0, operand1, operand2⟩)) s

/-- Load32 (R126): decodes to its kind; operand roles and execution are not in the source. -/
def execLoad32 (operand0 operand1 operand2 : Byte) (s : State) :
    Host.Outcome State Fault Refusal :=
  atPort (answer (decodedFields ⟨kindCode .load32, operand0, operand1, operand2⟩)) s

/-- Load64 (R127). -/
def execLoad64 (operand0 operand1 operand2 : Byte) (s : State) :
    Host.Outcome State Fault Refusal :=
  atPort (answer (decodedFields ⟨kindCode .load64, operand0, operand1, operand2⟩)) s

/-- Store32 (R128). -/
def execStore32 (operand0 operand1 operand2 : Byte) (s : State) :
    Host.Outcome State Fault Refusal :=
  atPort (answer (decodedFields ⟨kindCode .store32, operand0, operand1, operand2⟩)) s

/-- Store64 (R129). -/
def execStore64 (operand0 operand1 operand2 : Byte) (s : State) :
    Host.Outcome State Fault Refusal :=
  atPort (answer (decodedFields ⟨kindCode .store64, operand0, operand1, operand2⟩)) s

/-- ExecuteOp (R130): destination, source0, source1; the record determines no request (R132). -/
def execExecuteOp (dst src0 src1 : Byte) (s : State) : Host.Outcome State Fault Refusal :=
  atPort (answer (decodedFields ⟨kindCode .executeOp, dst, src0, src1⟩)) s

/-- NOP_EQUIV (R131): decoded as Nop. -/
def execNopEquiv (kind operand0 operand1 operand2 : Byte) (s : State) :
    Host.Outcome State Fault Refusal :=
  atPort (answer (decodedFields ⟨kind, operand0, operand1, operand2⟩)) s

end Sys2Proof.Machine
end

