-- ==== Sys2Proof/Machine/Dispatch.lean ====
section
/-! DEFINITION. One arm per constructor of Instr, each a direct call of its meaning. -/

namespace Sys2Proof.Machine

def exec (i : Instr) (s : State) : Host.Outcome State Fault Refusal :=
  match i with
  | .w32 a v => Sys2Proof.Machine.execW32 a v s
  | .w64 a v => Sys2Proof.Machine.execW64 a v s
  | .rd32 a => Sys2Proof.Machine.execRd32 a s
  | .violation d a p => Sys2Proof.Machine.execViolation d a p s
  | .nop x y z => Sys2Proof.Machine.execNop x y z s
  | .load32 x y z => Sys2Proof.Machine.execLoad32 x y z s
  | .load64 x y z => Sys2Proof.Machine.execLoad64 x y z s
  | .store32 x y z => Sys2Proof.Machine.execStore32 x y z s
  | .store64 x y z => Sys2Proof.Machine.execStore64 x y z s
  | .executeOp d x y => Sys2Proof.Machine.execExecuteOp d x y s
  | .nopEquiv k x y z => Sys2Proof.Machine.execNopEquiv k x y z s
  | .add32 d x y => Sys2Proof.Machine.execAdd32 d x y s
  | .sub32 d x y => Sys2Proof.Machine.execSub32 d x y s
  | .mul32 d x y => Sys2Proof.Machine.execMul32 d x y s
  | .div32 d x y => Sys2Proof.Machine.execDiv32 d x y s
  | .add64 d x y => Sys2Proof.Machine.execAdd64 d x y s
  | .sub64 d x y => Sys2Proof.Machine.execSub64 d x y s
  | .mul64 d x y => Sys2Proof.Machine.execMul64 d x y s
  | .div64 d x y => Sys2Proof.Machine.execDiv64 d x y s
  | .sine64 d x y => Sys2Proof.Machine.execSine64 d x y s
  | .cosine64 d x y => Sys2Proof.Machine.execCosine64 d x y s
  | .tangent64 d x y => Sys2Proof.Machine.execTangent64 d x y s
  | .squareRoot64 d x y => Sys2Proof.Machine.execSquareRoot64 d x y s
  | .unsupported o d x y => Sys2Proof.Machine.execUnsupported o d x y s
  | .read32 n => Sys2Proof.Machine.execRead32 n s
  | .read64 n => Sys2Proof.Machine.execRead64 n s
  | .write32 n v => Sys2Proof.Machine.execWrite32 n v s
  | .write64 n v => Sys2Proof.Machine.execWrite64 n v s
  | .rfClear => Sys2Proof.Machine.execRfClear s
  | .osWrite n r => Sys2Proof.Machine.execOsWrite n r s
  | .osRead n => Sys2Proof.Machine.execOsRead n s
  | .osClear => Sys2Proof.Machine.execOsClear s
  | .execute o d x y => Sys2Proof.Machine.execExecute o d x y s
  | .reset => Sys2Proof.Machine.execReset s

end Sys2Proof.Machine
end

