-- ==== Sys2Proof/Machine/Fetch.lean ====
section
/-! DEFINITION. What the control loop takes up next (43_bus_protocol.md R191, R193, R200, R201,
R205), and how an input comes to stand there. -/

namespace Sys2Proof.Machine

/-- What one turn of the control loop does. -/
inductive Fetched where
  /-- `poll()` returned none and no local-port call is waiting (R201). -/
  | idlePoll (s : State)
  /-- A transaction was accepted (R191 row 2). -/
  | accepted (s : State)
  /-- An instruction is run: the latched transaction's, or a local-port operation. -/
  | run (i : Instr) (s : State)
  /-- A form the spec refuses by name (R133). -/
  | refused (r : Refusal)
  /-- BusyProcessing without a latched transaction: no run reaches it (R16). -/
  | broken (f : Fault)
  deriving DecidableEq, Repr

/-- The refusal a rejected input ends in (R133, U7). -/
def refusalOf : Reject → Refusal
  | .recordExecution n => .recordExecution n
  | .programExecution => .programExecution

/-- One turn: in BusyProcessing the latched transaction is completed before anything else is looked
at (R200, R255); in Idle the oldest input is taken. -/
def fetch (s : State) : Fetched :=
  match s.phase with
  | .busyProcessing =>
    match s.cur with
    | some t => .run (decodeTxn t) s
    | none => .broken .noLatchedTransaction
  | .idle =>
    match s.inputs with
    | [] => .idlePoll s
    | .txn t :: rest => .accepted (accept t { s with inputs := rest })
    | inp :: rest =>
      match decode inp with
      | .instr i => .run i { s with inputs := rest }
      | .rejected r => .refused (refusalOf r)

/-- The state in which the very next step runs the instruction of an input: a transaction has just
been accepted; anything else is the oldest input of an Idle block. -/
def present (inp : Input) (s : State) : State :=
  match inp with
  | .txn t => accept t s
  | _ => { s with phase := .idle, busy := false, cur := none, inputs := inp :: s.inputs }

end Sys2Proof.Machine
end

