-- ==== Sys2Proof/Machine/Step.lean ====
section
/-! DEFINITION. One step of the machine is one turn of the control loop (43_bus_protocol.md R191,
R193): an idle poll, the acceptance of a transaction, or one instruction run to its end. -/

namespace Sys2Proof.Machine

/-- One step. -/
def step (s : State) : Host.Outcome State Fault Refusal :=
  match fetch s with
  | .idlePoll t => .next t
  | .accepted t => .next t
  | .run i t => exec i t
  | .refused r => .refused r
  | .broken f => .fault f

/-- `s` with the instruction of a table word where `step` takes its next instruction: see `present`
and log entry 5. A word of no format leaves `s` as it is. -/
def State.withFetchWord (s : State) (nbits w : Nat) : State :=
  match tableInput nbits w with
  | some inp => present inp s
  | none => s

end Sys2Proof.Machine
end

