-- ==== Sys2Proof/Machine/Flags.lean ====
section
/-! DEFINITION. The block has no flags register, no condition code and no floating-point status
(10_state.md R18; 42_operation_dispatcher.md R169). The one flag of the spec is the success flag of
an Operation Result, a returned value (R82): its code, its truth and its message stand here. -/

namespace Sys2Proof.Machine

/-- The 2-bit status code (R82, D8). -/
def statusCode : OpStatus → BitVec 2
  | .ok => 0
  | .srcRange => 1
  | .dstRange => 2
  | .unsupportedOp => 3

/-- `ok` is true exactly for code 0 (R82). -/
def statusOk (c : OpStatus) : Bool := statusCode c == 0

/-- The diagnostic message, the source's exact text (R82, R222). -/
def statusMessage : OpStatus → Option String
  | .ok => none
  | .srcRange => some "source register out of range"
  | .dstRange => some "destination register out of range"
  | .unsupportedOp => some "unsupported operation"

end Sys2Proof.Machine
end

