-- ==== Sys2Proof/Safety.lean ====
section
/-! DEFINITION. The terms the claims are stated in: the invariants of the machine, what an
instruction may change, the event stream's discipline, and IEEE-754 read off the bit patterns
(42_operation_dispatcher.md R160 to R170) independently of the arithmetic in Machine/Float.lean. -/

namespace Sys2Proof.Machine

/- ## Invariants -/

/-- Busy, latched and processing are one thing (R15, R16, R191), and the slot memory is canonical. -/
abbrev State.Inv (s : State) : Prop :=
  (s.busy = true ↔ s.phase = .busyProcessing) ∧
  (s.cur.isSome = true ↔ s.phase = .busyProcessing) ∧
  Memory.wf s.slot

/-- Where a reader of the event stream stands: between transactions, after `set_busy(true)`, after
`respond`, after the outcome label. -/
inductive TracePos where
  | outside
  | opened
  | answered (data : List Byte)
  | labelled
  deriving DecidableEq, Repr

/-- The order R199, R192 and R205 allow: for each transaction `set_busy(true)`, then `respond` with
the label's data exactly for `Responded`, then one label, then `set_busy(false)`; local-port results
only between transactions. -/
def traceStep : Option TracePos → Event → Option TracePos
  | some .outside, .setBusy true => some .opened
  | some .outside, .result _ => some .outside
  | some .opened, .respond _ d => some (.answered d)
  | some .opened, .outcome .writeDone => some .labelled
  | some .opened, .outcome (.dropped _) => some .labelled
  | some (.answered d), .outcome (.responded d') => if d = d' then some .labelled else none
  | some .labelled, .setBusy false => some .outside
  | _, _ => none

/-- Where the stream stands after some events; `none` once the order has been broken. -/
def tracePos (es : List Event) : Option TracePos := es.foldl traceStep (some .outside)

/-- The stream is in order, and `busy` is what it last said (R199). -/
abbrev State.TraceInv (s : State) : Prop :=
  tracePos s.events = some (if s.busy then .opened else .outside)

/- ## What changes -/

/-- `phase`, `busy`, `cur` and the inputs are as they were. -/
def SameControl (s t : State) : Prop :=
  t.phase = s.phase ∧ t.busy = s.busy ∧ t.cur = s.cur ∧ t.inputs = s.inputs

/-- Every slot reads as it did. -/
def SameSlots (s t : State) : Prop := ∀ j, readSlot t j = readSlot s j

/-- Every register entry reads as it did. -/
def SameRegisters (s t : State) : Prop :=
  (∀ j, read32 t j = read32 s j) ∧ ∀ j, read64 t j = read64 s j

/-- Every 32-bit entry but `i`, every 64-bit entry and every slot read as they did. -/
def OnlyR32 (i : Nat) (s t : State) : Prop :=
  (∀ j, j ≠ i → read32 t j = read32 s j) ∧ (∀ j, read64 t j = read64 s j) ∧ SameSlots s t

/-- Every 64-bit entry but `i`, every 32-bit entry and every slot read as they did. -/
def OnlyR64 (i : Nat) (s t : State) : Prop :=
  (∀ j, j ≠ i → read64 t j = read64 s j) ∧ (∀ j, read32 t j = read32 s j) ∧ SameSlots s t

/-- Every slot but `i` and every register read as they did. -/
def OnlySlot (i : Nat) (s t : State) : Prop :=
  (∀ j, j ≠ i → readSlot t j = readSlot s j) ∧ SameRegisters s t

/-- The local port returned `r`; nothing but the event stream, the draw index and what the caller of
this predicate names besides may have changed. -/
def Returned (r : PortResult) (s t : State) : Prop :=
  SameControl s t ∧ t.events = s.events ++ [.result r]

/-- Nothing changed but that the local port returned `r`. -/
def ReturnedOnly (r : PortResult) (s t : State) : Prop :=
  Returned r s t ∧ SameRegisters s t ∧ SameSlots s t ∧ t.draws = s.draws

/-- The values of R21. -/
def BlockCleared (s : State) : Prop :=
  (∀ i, i < 256 → read32 s i = some 0) ∧ (∀ i, i < 256 → read64 s i = some 0) ∧
  (∀ i, i < 1024 → readSlot s i = some ⟨0, 0, 0, 0⟩) ∧
  s.phase = .idle ∧ s.busy = false ∧ s.cur = none

/-- A transaction may run: the block is Idle, or it is the one being processed (R191, R193). -/
def Admitted (t : Transaction) (s : State) : Prop :=
  s.phase = .idle ∨ (s.phase = .busyProcessing ∧ s.cur = some t)

/-- `set_busy(true)`, if the transaction is not accepted yet. -/
def openingPulse (s : State) : List Event :=
  match s.phase with
  | .idle => [.setBusy true]
  | .busyProcessing => []

/-- A transaction has ended: Idle again, and after the opening pulse the stream has `es`, the label
and `set_busy(false)` (R192, R199). -/
def TxnEnded (es : List Event) (l : Label) (s t : State) : Prop :=
  t.phase = .idle ∧ t.busy = false ∧ t.cur = none ∧ t.inputs = s.inputs ∧ t.draws = s.draws ∧
  t.events = s.events ++ openingPulse s ++ es ++ [.outcome l, .setBusy false]

/-- The three spaces of R40. -/
structure Spaces where
  r32 : Bool
  r64 : Bool
  slot : Bool
  deriving DecidableEq, Repr

/-- Which spaces an instruction may change (R105, R12): the 32-bit one by W32, write32, the 32-bit
family and what selects it; the 64-bit one likewise; the slots by os.write; each by its clear; all
three by the reset. -/
def mayWrite : Instr → Spaces
  | .w32 _ _ | .write32 _ _ | .add32 _ _ _ | .sub32 _ _ _ | .mul32 _ _ _ | .div32 _ _ _ =>
    ⟨true, false, false⟩
  | .w64 _ _ | .write64 _ _ | .add64 _ _ _ | .sub64 _ _ _ | .mul64 _ _ _ | .div64 _ _ _
  | .sine64 _ _ _ | .cosine64 _ _ _ | .tangent64 _ _ _ | .squareRoot64 _ _ _ =>
    ⟨false, true, false⟩
  | .execute op _ _ _ => ⟨decide (op.toNat < 4), decide (4 ≤ op.toNat ∧ op.toNat < 12), false⟩
  | .rfClear => ⟨true, true, false⟩
  | .osWrite _ _ | .osClear => ⟨false, false, true⟩
  | .reset => ⟨true, true, true⟩
  | .rd32 _ | .violation _ _ _ | .nop _ _ _ | .load32 _ _ _ | .load64 _ _ _ | .store32 _ _ _
  | .store64 _ _ _ | .executeOp _ _ _ | .nopEquiv _ _ _ _ | .unsupported _ _ _ _
  | .read32 _ | .read64 _ | .osRead _ => ⟨false, false, false⟩

/-- Transactions run one after the other, each whole (R200). -/
def runTransactions : List Transaction → State → Host.Outcome State Fault Refusal
  | [], s => .next s
  | t :: ts, s =>
    match exec (decodeTxn t) s with
    | .next s' => runTransactions ts s'
    | .fault f => .fault f
    | .refused r => .refused r

/-- Two outcomes alike in all but the slots, and in the events too unless `relaxed`. -/
def AgreeButSlots (relaxed : Bool) (x y : Host.Outcome State Fault Refusal) : Prop :=
  match x, y with
  | .next s, .next t =>
    t.r32 = s.r32 ∧ t.r64 = s.r64 ∧ SameControl s t ∧ t.draws = s.draws ∧
      (relaxed = false → t.events = s.events)
  | .fault f, .fault g => f = g
  | .refused q, .refused r => q = r
  | _, _ => False

/- ## IEEE-754 on bit patterns -/

/-- The exponent field of a pattern with `p` fraction bits (R160: `w[30:23]`; R161: `w[62:52]`). -/
def expField (n p : Nat) (w : BitVec n) : Nat := w.toNat / 2 ^ p % 2 ^ (n - 1 - p)

/-- The fraction field (R160: `w[22:0]`; R161: `w[51:0]`). -/
def fracField (n p : Nat) (w : BitVec n) : Nat := w.toNat % 2 ^ p

/-- The all-ones exponent field. -/
def topExp (n p : Nat) : Nat := 2 ^ (n - 1 - p) - 1

/-- The NaN predicate of R168. -/
abbrev IsNaN (n p : Nat) (w : BitVec n) : Prop := expField n p w = topExp n p ∧ fracField n p w ≠ 0

/-- ±∞ (R160, R161). -/
abbrev IsInf (n p : Nat) (w : BitVec n) : Prop := expField n p w = topExp n p ∧ fracField n p w = 0

/-- ±0 (R160, R161). -/
abbrev IsZero (n p : Nat) (w : BitVec n) : Prop := expField n p w = 0 ∧ fracField n p w = 0

/-- A zero, subnormal or normal. -/
abbrev IsFinite (n p : Nat) (w : BitVec n) : Prop := expField n p w ≠ topExp n p

/-- The exponent bias (R160: 127; R161: 1023). -/
def biasOf (n p : Nat) : Nat := 2 ^ (n - 2 - p) - 1

/-- The number a finite pattern encodes (R160, R161). -/
def valueOf (n p : Nat) (w : BitVec n) : ℚ :=
  (if w.msb then -1 else 1) *
    (if expField n p w = 0 then (fracField n p w : ℚ) * 2 ^ ((1 : ℤ) - biasOf n p - p)
     else (2 ^ p + fracField n p w : ℚ) * 2 ^ ((expField n p w : ℤ) - biasOf n p - p))

/-- Infinity of a sign. -/
def infPattern (n p : Nat) (neg : Bool) : BitVec n :=
  BitVec.ofNat n (neg.toNat * 2 ^ (n - 1) + topExp n p * 2 ^ p)

/-- Zero of a sign. -/
def zeroPattern (n : Nat) (neg : Bool) : BitVec n := BitVec.ofNat n (neg.toNat * 2 ^ (n - 1))

/-- `r` is `rnd(x)` for a real `x ≠ 0` (R162): the sign is that of `x`; from half a spacing above the
largest finite value on it is infinity; below, it is a finite pattern as near to `x` as any, and
where another value is equally near its last significand bit is even. -/
def RoundsTo (n p : Nat) (x : ℝ) (r : BitVec n) : Prop :=
  (r.msb = true ↔ x < 0) ∧
  ((2 - 1 / 2 ^ (p + 1)) * 2 ^ biasOf n p ≤ |x| → IsInf n p r) ∧
  (|x| < (2 - 1 / 2 ^ (p + 1)) * 2 ^ biasOf n p →
    IsFinite n p r ∧
    ∀ w : BitVec n, IsFinite n p w →
      |(valueOf n p r : ℝ) - x| ≤ |(valueOf n p w : ℝ) - x| ∧
      (|(valueOf n p r : ℝ) - x| = |(valueOf n p w : ℝ) - x| →
        valueOf n p w = valueOf n p r ∨ r.toNat % 2 = 0))

/-- `r` may be `a + b`: the eight rows of R163, the first that matches. -/
def SumSpec (n p : Nat) (a b r : BitVec n) : Prop :=
  if IsNaN n p a ∨ IsNaN n p b then IsNaN n p r
  else if IsInf n p a ∧ IsInf n p b ∧ a.msb ≠ b.msb then IsNaN n p r
  else if IsInf n p a then r = a
  else if IsInf n p b then r = b
  else if IsZero n p a ∧ IsZero n p b ∧ a.msb = b.msb then r = a
  else if IsZero n p a ∧ IsZero n p b then r = zeroPattern n false
  else if valueOf n p a + valueOf n p b = 0 then r = zeroPattern n false
  else RoundsTo n p ((valueOf n p a + valueOf n p b : ℚ) : ℝ) r

/-- The sign bit of a pattern flipped: `neg` (R163). -/
def flipSign (n : Nat) (w : BitVec n) : BitVec n := w ^^^ BitVec.ofNat n (2 ^ (n - 1))

/-- `r` may be `a × b`: the five rows of R164. -/
def ProductSpec (n p : Nat) (a b r : BitVec n) : Prop :=
  if IsNaN n p a ∨ IsNaN n p b then IsNaN n p r
  else if (IsZero n p a ∧ IsInf n p b) ∨ (IsInf n p a ∧ IsZero n p b) then IsNaN n p r
  else if IsInf n p a ∨ IsInf n p b then r = infPattern n p (a.msb ^^ b.msb)
  else if IsZero n p a ∨ IsZero n p b then r = zeroPattern n (a.msb ^^ b.msb)
  else RoundsTo n p ((valueOf n p a * valueOf n p b : ℚ) : ℝ) r

/-- `r` may be `a ÷ b`: the eight rows of R165. -/
def QuotientSpec (n p : Nat) (a b r : BitVec n) : Prop :=
  if IsNaN n p a ∨ IsNaN n p b then IsNaN n p r
  else if IsZero n p a ∧ IsZero n p b then IsNaN n p r
  else if IsInf n p a ∧ IsInf n p b then IsNaN n p r
  else if IsInf n p a then r = infPattern n p (a.msb ^^ b.msb)
  else if IsInf n p b then r = zeroPattern n (a.msb ^^ b.msb)
  else if IsZero n p b then r = infPattern n p (a.msb ^^ b.msb)
  else if IsZero n p a then r = zeroPattern n (a.msb ^^ b.msb)
  else RoundsTo n p ((valueOf n p a / valueOf n p b : ℚ) : ℝ) r

/-- `r` may be `√a`: the five rows of R166. -/
def RootSpec (n p : Nat) (a r : BitVec n) : Prop :=
  if IsNaN n p a then IsNaN n p r
  else if IsZero n p a then r = a
  else if IsInf n p a ∧ a.msb = false then r = a
  else if a.msb = true then IsNaN n p r
  else RoundsTo n p (Real.sqrt (valueOf n p a : ℝ)) r

/- ## What a dispatcher operation answers (R157, R158, R159) -/

/-- A binary operation of the 32-bit family, from first to last: with its indices in range it writes
one `r` allowed by `spec` for the OLD source entries and returns `Ok`; with a source index out of
range `Fail(SRC_RANGE)`, else with the destination out of range `Fail(DST_RANGE)`, and then nothing
changes. -/
def Answers32 (i : Instr) (s : State) (dst src0 src1 : Nat)
    (spec : Word32 → Word32 → Word32 → Prop) : Prop :=
  (src0 < 256 → src1 < 256 → dst < 256 → ∃ a b r t, exec i s = .next t ∧
    read32 s src0 = some a ∧ read32 s src1 = some b ∧ read32 t dst = some r ∧ spec a b r ∧
    OnlyR32 dst s t ∧ Returned (.status .ok) s t) ∧
  (256 ≤ src0 ∨ 256 ≤ src1 → ∃ t, exec i s = .next t ∧ ReturnedOnly (.status .srcRange) s t) ∧
  (src0 < 256 → src1 < 256 → 256 ≤ dst →
    ∃ t, exec i s = .next t ∧ ReturnedOnly (.status .dstRange) s t)

/-- The same for a binary operation of the 64-bit family. -/
def Answers64 (i : Instr) (s : State) (dst src0 src1 : Nat)
    (spec : Word64 → Word64 → Word64 → Prop) : Prop :=
  (src0 < 256 → src1 < 256 → dst < 256 → ∃ a b r t, exec i s = .next t ∧
    read64 s src0 = some a ∧ read64 s src1 = some b ∧ read64 t dst = some r ∧ spec a b r ∧
    OnlyR64 dst s t ∧ Returned (.status .ok) s t) ∧
  (256 ≤ src0 ∨ 256 ≤ src1 → ∃ t, exec i s = .next t ∧ ReturnedOnly (.status .srcRange) s t) ∧
  (src0 < 256 → src1 < 256 → 256 ≤ dst →
    ∃ t, exec i s = .next t ∧ ReturnedOnly (.status .dstRange) s t)

/-- The same for a unary operation: source1 takes no part, whatever it is (R143). -/
def AnswersUnary (i : Instr) (s : State) (dst src0 : Nat) (spec : Word64 → Word64 → Prop) : Prop :=
  (src0 < 256 → dst < 256 → ∃ a r t, exec i s = .next t ∧
    read64 s src0 = some a ∧ read64 t dst = some r ∧ spec a r ∧
    OnlyR64 dst s t ∧ Returned (.status .ok) s t) ∧
  (256 ≤ src0 → ∃ t, exec i s = .next t ∧ ReturnedOnly (.status .srcRange) s t) ∧
  (src0 < 256 → 256 ≤ dst → ∃ t, exec i s = .next t ∧ ReturnedOnly (.status .dstRange) s t)

/-- `r` may be the result of the transcendental `G` at `a` (R170, R168): `G a` itself, or any NaN
where that is one. -/
def FunctionSpec (G : Word64 → Word64) (a r : Word64) : Prop :=
  if IsNaN 64 52 (G a) then IsNaN 64 52 r else r = G a

/- ## The optional hypotheses about SIN64, COS64, TAN64 (R170 a to e); nothing in the model assumes one -/

/-- (a): a NaN argument gives a NaN result. -/
def NanGivesNan (G : Word64 → Word64) : Prop := ∀ a, IsNaN 64 52 a → IsNaN 64 52 (G a)

/-- (b): an infinite argument gives a NaN result. -/
def InfGivesNan (G : Word64 → Word64) : Prop := ∀ a, IsInf 64 52 a → IsNaN 64 52 (G a)

/-- (c) for SIN64 and TAN64: ±0 gives ±0 of the same sign. -/
def KeepsZero (G : Word64 → Word64) : Prop := ∀ a, IsZero 64 52 a → G a = a

/-- (c) for COS64: ±0 gives 1.0. -/
def ZeroGivesOne (G : Word64 → Word64) : Prop := ∀ a, IsZero 64 52 a → G a = 0x3FF0000000000000

/-- (d) for SIN64 and COS64: finite, of magnitude at most 1, for a finite argument. -/
def BoundedByOne (G : Word64 → Word64) : Prop :=
  ∀ a, IsFinite 64 52 a → IsFinite 64 52 (G a) ∧ |valueOf 64 52 (G a)| ≤ 1

/-- (e): within `k` units in the last place of the real function `g` of the argument in radians; the
spec knows no `k`. -/
def WithinUlps (G : Word64 → Word64) (g : ℝ → ℝ) (k : ℕ) : Prop :=
  ∀ a, IsFinite 64 52 a → IsFinite 64 52 (G a) ∧
    |(valueOf 64 52 (G a) : ℝ) - g (valueOf 64 52 a)| ≤
      k * 2 ^ ((max (expField 64 52 (G a)) 1 : ℤ) - 1075)

end Sys2Proof.Machine
end

