-- ==== Sys2Proof/Certificates/Slice0/Obligations.lean ====
section
/-! DEFINITION. The statements for the provers, from the numbered rules of spec/. Each says what an
instruction or the machine does in every state, reachable or not; where that needs an invariant,
the invariant is a premise and has statements of its own. -/

open Sys2Proof Sys2Proof.Machine

/- ## Encodings -/

/-- Words written out from R70 to R87 decode to the instructions they stand for. -/
def Obligations.SpecWordsDecode : Prop :=
  decode (.txn ⟨.write, 3, [0x00, 0x00, 0x80, 0x3F]⟩) = .instr (.w32 3 0x3F800000) ∧
  decode (.txn ⟨.write, 5, [0, 0, 0, 0, 0, 0, 0xF0, 0x3F]⟩) = .instr (.w64 5 0x3FF0000000000000) ∧
  decode (.txn ⟨.read, 3, []⟩) = .instr (.rd32 3) ∧
  decode (.txn ⟨.read, 3, [0, 0, 0, 0]⟩) = .instr (.violation .read 3 [0, 0, 0, 0]) ∧
  decode (.record ⟨0x05, 2, 0, 1⟩) = .instr (.executeOp 2 0 1) ∧
  decode (.record ⟨0x77, 1, 2, 3⟩) = .instr (.nopEquiv 0x77 1 2 3) ∧
  decode (.request ⟨0x00, 2, 0, 1⟩) = .instr (.add32 2 0 1) ∧
  decode (.request ⟨0x0B, 5, 4, 0⟩) = .instr (.squareRoot64 5 4 0) ∧
  decode (.request ⟨0x0C, 0, 0, 0⟩) = .instr (.unsupported 0x0C 0 0 0) ∧
  decode (.port (.osWrite 1023 ⟨0x04, 9, 9, 9⟩)) = .instr (.osWrite 1023 ⟨0x04, 9, 9, 9⟩)

/-- Decoding what the encoder made gives the instruction back, for every well-formed instruction. -/
def Obligations.DecodeAfterEncode : Prop :=
  ∀ i : Instr, i.wellFormed = true → decode (encode i) = .instr i

/-- Every input means at most one instruction: what decodes is well-formed and encodes back to it. -/
def Obligations.EncodeAfterDecode : Prop :=
  ∀ (inp : Input) (i : Instr), decode inp = .instr i → i.wellFormed = true ∧ encode i = inp

/-- R71: the four shapes, tested in order, exhaustive and exclusive. -/
def Obligations.ShapeDecode : Prop :=
  ∀ t : Transaction,
    if t.direction = .write ∧ t.payload.length = 4 then
      ∃ b0 b1 b2 b3, t.payload = [b0, b1, b2, b3] ∧ decodeTxn t = .w32 t.address (le32 b0 b1 b2 b3)
    else if t.direction = .write ∧ t.payload.length = 8 then
      ∃ b0 b1 b2 b3 b4 b5 b6 b7, t.payload = [b0, b1, b2, b3, b4, b5, b6, b7] ∧
        decodeTxn t = .w64 t.address (le64 b0 b1 b2 b3 b4 b5 b6 b7)
    else if t.direction = .read ∧ t.payload.length = 0 then decodeTxn t = .rd32 t.address
    else decodeTxn t = .violation t.direction t.address t.payload

/-- R77: record decode is total; codes 0 to 5 are the six kinds, 6 to 255 are Nop-equivalent, and
the operand bytes pass through. -/
def Obligations.RecordDecode : Prop :=
  ∀ r : Record, ∃ k, decodedFields r = .decoded k r.operand0 r.operand1 r.operand2 ∧
    k = (match r.kind.toNat with
      | 0 => .nop | 1 => .load32 | 2 => .load64 | 3 => .store32 | 4 => .store64 | 5 => .executeOp
      | _ => .nop)

/-- R7: little-endian assembly and serialization, and the source's own instance. -/
def Obligations.LittleEndian : Prop :=
  (∀ b0 b1 b2 b3 : Byte, (le32 b0 b1 b2 b3).toNat
      = b0.toNat + 2 ^ 8 * b1.toNat + 2 ^ 16 * b2.toNat + 2 ^ 24 * b3.toNat) ∧
  (∀ b0 b1 b2 b3 b4 b5 b6 b7 : Byte, (le64 b0 b1 b2 b3 b4 b5 b6 b7).toNat
      = b0.toNat + 2 ^ 8 * b1.toNat + 2 ^ 16 * b2.toNat + 2 ^ 24 * b3.toNat
        + 2 ^ 32 * b4.toNat + 2 ^ 40 * b5.toNat + 2 ^ 48 * b6.toNat + 2 ^ 56 * b7.toNat) ∧
  (∀ w : Word32, (bytesLe32 w).map BitVec.toNat
      = (List.range 4).map fun i => w.toNat / 2 ^ (8 * i) % 2 ^ 8) ∧
  (∀ w : Word64, (bytesLe64 w).map BitVec.toNat
      = (List.range 8).map fun i => w.toNat / 2 ^ (8 * i) % 2 ^ 8) ∧
  le32 0x00 0x00 0x80 0x3F = 0x3F800000

/-- Assembly and serialization are inverse to each other, at both widths: R7's own inference. -/
def Obligations.LittleEndianInverse : Prop :=
  (∀ b0 b1 b2 b3 : Byte, bytesLe32 (le32 b0 b1 b2 b3) = [b0, b1, b2, b3]) ∧
  (∀ w : Word32, ∃ b0 b1 b2 b3, bytesLe32 w = [b0, b1, b2, b3] ∧ le32 b0 b1 b2 b3 = w) ∧
  (∀ b0 b1 b2 b3 b4 b5 b6 b7 : Byte,
    bytesLe64 (le64 b0 b1 b2 b3 b4 b5 b6 b7) = [b0, b1, b2, b3, b4, b5, b6, b7]) ∧
  (∀ w : Word64, ∃ b0 b1 b2 b3 b4 b5 b6 b7,
    bytesLe64 w = [b0, b1, b2, b3, b4, b5, b6, b7] ∧ le64 b0 b1 b2 b3 b4 b5 b6 b7 = w)

/- ## The machine as a whole -/

/-- R21: startup and the reset event leave the block in the same state, that of the table. The
values of `r32` and `r64` at startup are the spec's decision D1. -/
def Obligations.StartupAndReset : Prop :=
  BlockCleared State.reset ∧
  ∀ s : State, s.phase = .idle →
    ∃ t, exec .reset s = .next t ∧ BlockCleared t ∧ t.inputs = s.inputs ∧
      t.events = s.events ++ [.result .done] ∧ t.draws = s.draws

/-- Both invariants hold at reset. -/
def Obligations.InvariantsAtReset : Prop := State.reset.Inv ∧ State.reset.TraceInv

/-- Every step keeps busy, phase and latch together (R15, R16, R191) and the slot memory canonical. -/
def Obligations.StepKeepsInvariant : Prop :=
  ∀ s t : State, s.Inv → step s = .next t → t.Inv

/-- Every step keeps the event stream in the order R199, R192 and R205 ask for. -/
def Obligations.StepKeepsTraceOrder : Prop :=
  ∀ s t : State, s.Inv → s.TraceInv → step s = .next t → t.TraceInv

/-- The machine never faults and never stops of its own accord (R191, R220): from every state of the
invariant a step answers a next state, unless the oldest input of an Idle block is one of the two
forms R133 refuses, and then it is refused under that name. -/
def Obligations.StepAlwaysAnswers : Prop :=
  ∀ s : State, s.Inv →
    (∃ t, step s = .next t) ∨
    (s.phase = .idle ∧ ∃ n, s.inputs.head? = some (.runSlot n) ∧
      step s = .refused (.recordExecution n)) ∨
    (s.phase = .idle ∧ s.inputs.head? = some .runStore ∧ step s = .refused .programExecution)

/-- R201: an idle poll changes nothing. -/
def Obligations.IdlePoll : Prop :=
  ∀ s : State, s.phase = .idle → s.inputs = [] → step s = .next s

/-- R191 row 2: accepting a transaction latches it and raises busy, and does nothing else. -/
def Obligations.AcceptLatches : Prop :=
  ∀ (s : State) (t : Transaction) (rest : List Input),
    s.phase = .idle → s.inputs = .txn t :: rest →
    ∃ u, step s = .next u ∧ u.phase = .busyProcessing ∧ u.busy = true ∧ u.cur = some t ∧
      u.inputs = rest ∧ u.events = s.events ++ [.setBusy true] ∧ u.draws = s.draws ∧
      SameRegisters s u ∧ SameSlots s u

/-- A step runs the decoded instruction: the latched transaction's in BusyProcessing, and in Idle
that of the oldest input, taken off the inputs, if it is no transaction. -/
def Obligations.StepRunsDecoded : Prop :=
  (∀ (s : State) (t : Transaction), s.phase = .busyProcessing → s.cur = some t →
    step s = exec (decodeTxn t) s) ∧
  (∀ (s : State) (inp : Input) (rest : List Input) (i : Instr),
    s.phase = .idle → s.inputs = inp :: rest → (∀ t, inp ≠ .txn t) → decode inp = .instr i →
    step s = exec i { s with inputs := rest })

/-- R133: no record is ever executed. The two forms that ask for it are refused by name, and the
contents of the slots never influence the registers, busy, the phase, how an instruction ends or what
it puts out. The events of os.read alone are not compared here, since it returns the record of the
slot: `SlotRead` states them. -/
def Obligations.RecordsAreNeverExecuted : Prop :=
  (∀ (s : State) (n : Nat) (rest : List Input), s.phase = .idle → s.inputs = .runSlot n :: rest →
    step s = .refused (.recordExecution n)) ∧
  (∀ (s : State) (rest : List Input), s.phase = .idle → s.inputs = .runStore :: rest →
    step s = .refused .programExecution) ∧
  (∀ (i : Instr) (s : State) (m : Memory),
    AgreeButSlots (match i with | .osRead _ => true | _ => false) (exec i s)
      (exec i { s with slot := m }))

/- ## Bus transactions -/

/-- R194: W32 writes the one entry, little-endian, and nothing is sent. -/
def Obligations.W32WritesRegister : Prop :=
  ∀ (s : State) (a b0 b1 b2 b3 : Byte), Admitted ⟨.write, a, [b0, b1, b2, b3]⟩ s →
    ∃ t, exec (.w32 a (le32 b0 b1 b2 b3)) s = .next t ∧
      read32 t a.toNat = some (le32 b0 b1 b2 b3) ∧ OnlyR32 a.toNat s t ∧
      TxnEnded [] .writeDone s t

/-- R195: W64 writes the one 64-bit entry, little-endian, and nothing is sent. -/
def Obligations.W64WritesRegister : Prop :=
  ∀ (s : State) (a b0 b1 b2 b3 b4 b5 b6 b7 : Byte),
    Admitted ⟨.write, a, [b0, b1, b2, b3, b4, b5, b6, b7]⟩ s →
    ∃ t, exec (.w64 a (le64 b0 b1 b2 b3 b4 b5 b6 b7)) s = .next t ∧
      read64 t a.toNat = some (le64 b0 b1 b2 b3 b4 b5 b6 b7) ∧ OnlyR64 a.toNat s t ∧
      TxnEnded [] .writeDone s t

/-- R196: RD32 responds once, with the four little-endian bytes of the 32-bit entry, and changes no
register and no slot. -/
def Obligations.Rd32Responds : Prop :=
  ∀ (s : State) (a : Byte), Admitted ⟨.read, a, []⟩ s →
    ∃ w t, exec (.rd32 a) s = .next t ∧ read32 s a.toNat = some w ∧
      SameRegisters s t ∧ SameSlots s t ∧
      TxnEnded [.respond ⟨.read, a, []⟩ (bytesLe32 w)] (.responded (bytesLe32 w)) s t

/-- R197: a violation is dropped, with the busy pulse, no response and no change. -/
def Obligations.ViolationDropped : Prop :=
  ∀ (s : State) (d : Direction) (a : Byte) (p : List Byte),
    (Instr.violation d a p).wellFormed = true → Admitted ⟨d, a, p⟩ s →
    ∃ t, exec (.violation d a p) s = .next t ∧ SameRegisters s t ∧ SameSlots s t ∧
      TxnEnded [] (.dropped .unsupportedShape) s t

/-- Every accepted transaction completes in the very next step, whatever its shape and whatever is
waiting: Idle again, not busy, nothing latched, the waiting inputs untouched (R191, R255, R265). -/
def Obligations.AcceptedCompletes : Prop :=
  ∀ (s : State) (t : Transaction), s.phase = .busyProcessing → s.cur = some t →
    ∃ u es l, step s = .next u ∧ u.phase = .idle ∧ u.busy = false ∧ u.cur = none ∧
      u.inputs = s.inputs ∧ u.slot = s.slot ∧ u.draws = s.draws ∧
      u.events = s.events ++ es ++ [.outcome l, .setBusy false] ∧
      ∀ e ∈ es, e = .respond t (bytesLe32 (s.r32[t.address.toNat]'t.address.isLt))

/-- The two steps of a transaction are the fused one (R193, D27). -/
def Obligations.TwoStepsAreTheFusedOne : Prop :=
  ∀ (s : State) (t : Transaction) (rest : List Input),
    s.phase = .idle → s.inputs = .txn t :: rest →
    ∃ u v, step s = .next u ∧ step u = .next v ∧
      exec (decodeTxn t) { s with inputs := rest } = .next v

/-- Queued transactions are processed one at a time, each to completion, in the order `poll()` gives
them (R200, R264): two steps each, with the effect of running them whole one after the other. -/
def Obligations.QueuedTransactionsInOrder : Prop :=
  ∀ (ts : List Transaction) (s : State) (rest : List Input), s.phase = .idle →
    ∃ t : State, Host.Core.run core (2 * ts.length) { s with inputs := ts.map Input.txn ++ rest } = .next t ∧
      runTransactions ts { s with inputs := rest } = .next t ∧ t.phase = .idle ∧ t.inputs = rest

/-- A transaction presented while another one is being processed is refused by name: the model's
form of the assumption U9 on the master (R258; log entry 9). -/
def Obligations.OverlappingRefused : Prop :=
  ∀ (s : State) (t : Transaction), ¬ Admitted t s →
    exec (decodeTxn t) s = .refused .overlappingTransaction

/-- A local-port operation, a record or a request while a transaction is processed is refused by
name (R205, R263, U12; log entry 10). -/
def Obligations.LocalPortOnlyInIdle : Prop :=
  ∀ (s : State) (inp : Input) (i : Instr), s.phase = .busyProcessing → (∀ t, inp ≠ .txn t) →
    decode inp = .instr i → exec i s = .refused .portWhileBusy

/-- R255: a reset raised while a transaction is processed takes effect after it completes. -/
def Obligations.ResetWaitsForTransaction : Prop :=
  ∀ (s : State) (t : Transaction) (rest : List Input),
    s.phase = .busyProcessing → s.cur = some t → s.inputs = .port .reset :: rest →
    ∃ u v, step s = .next u ∧ exec (decodeTxn t) s = .next u ∧ u.inputs = s.inputs ∧
      step u = .next v ∧ BlockCleared v ∧ v.inputs = rest

/- ## Record kinds -/

/-- Each record kind, presented to the decoder, yields its kind and operand bytes and changes
nothing (R125 to R131); no kind has any other effect. -/
def Obligations.RecordKindsDecode : Prop :=
  ∀ (s : State) (x y z : Byte), s.phase = .idle →
    (∃ t, exec (.nop x y z) s = .next t ∧ ReturnedOnly (.decoded .nop x y z) s t) ∧
    (∃ t, exec (.load32 x y z) s = .next t ∧ ReturnedOnly (.decoded .load32 x y z) s t) ∧
    (∃ t, exec (.load64 x y z) s = .next t ∧ ReturnedOnly (.decoded .load64 x y z) s t) ∧
    (∃ t, exec (.store32 x y z) s = .next t ∧ ReturnedOnly (.decoded .store32 x y z) s t) ∧
    (∃ t, exec (.store64 x y z) s = .next t ∧ ReturnedOnly (.decoded .store64 x y z) s t) ∧
    (∃ t, exec (.executeOp x y z) s = .next t ∧ ReturnedOnly (.decoded .executeOp x y z) s t) ∧
    (∀ k : Byte, 6 ≤ k.toNat →
      ∃ t, exec (.nopEquiv k x y z) s = .next t ∧ ReturnedOnly (.decoded .nop x y z) s t)

/- ## The Register File -/

/-- R100, R101: a read returns the entry for every index below 256 and `absent` for every other, and
changes nothing. -/
def Obligations.RegisterReads : Prop :=
  ∀ (s : State) (i : Nat), s.phase = .idle →
    (∃ t, exec (.read32 i) s = .next t ∧ ReturnedOnly (.word32 s.r32[i]?) s t) ∧
    (∃ t, exec (.read64 i) s = .next t ∧ ReturnedOnly (.word64 s.r64[i]?) s t) ∧
    (256 ≤ i → s.r32[i]? = none ∧ s.r64[i]? = none) ∧
    (i < 256 → (∃ w, s.r32[i]? = some w) ∧ ∃ d, s.r64[i]? = some d)

/-- R102: write32 changes exactly its entry and returns true; out of range it returns false and
changes nothing. -/
def Obligations.Write32Port : Prop :=
  ∀ (s : State) (i : Nat) (v : Word32), s.phase = .idle →
    if i < 256 then
      ∃ t, exec (.write32 i v) s = .next t ∧ read32 t i = some v ∧ OnlyR32 i s t ∧
        Returned (.success true) s t ∧ t.draws = s.draws
    else ∃ t, exec (.write32 i v) s = .next t ∧ ReturnedOnly (.success false) s t

/-- R103: the same for write64. -/
def Obligations.Write64Port : Prop :=
  ∀ (s : State) (i : Nat) (v : Word64), s.phase = .idle →
    if i < 256 then
      ∃ t, exec (.write64 i v) s = .next t ∧ read64 t i = some v ∧ OnlyR64 i s t ∧
        Returned (.success true) s t ∧ t.draws = s.draws
    else ∃ t, exec (.write64 i v) s = .next t ∧ ReturnedOnly (.success false) s t

/-- R106: what is written is read back bit for bit. -/
def Obligations.RegisterRoundTrip : Prop :=
  ∀ (s : State) (i : Nat) (v : Word32) (d : Word64), s.phase = .idle → i < 256 →
    (∃ t u, exec (.write32 i v) s = .next t ∧ exec (.read32 i) t = .next u ∧
      ReturnedOnly (.word32 (some v)) t u) ∧
    (∃ t u, exec (.write64 i d) s = .next t ∧ exec (.read64 i) t = .next u ∧
      ReturnedOnly (.word64 (some d)) t u)

/-- R13: the two spaces do not alias. -/
def Obligations.SpacesDoNotAlias : Prop :=
  ∀ (s : State) (i j : Nat) (v : Word32) (d : Word64), i < 256 → j < 256 →
    (∃ t, write32 i v s = some t ∧ t.r64[j]? = s.r64[j]?) ∧
    (∃ t, write64 i d s = some t ∧ t.r32[j]? = s.r32[j]?)

/-- R104: rf.clear makes every entry of both spaces zero and changes nothing else; a second one right
after it finds and leaves the same registers. -/
def Obligations.RegisterClear : Prop :=
  ∀ s : State, s.phase = .idle → ∃ t, exec .rfClear s = .next t ∧
    (∀ i, i < 256 → read32 t i = some 0 ∧ read64 t i = some 0) ∧
    SameSlots s t ∧ Returned .done s t ∧ t.draws = s.draws ∧
    ∃ u, exec .rfClear t = .next u ∧ SameRegisters t u

/- ## The Opcode Store -/

/-- R120: os.write overwrites exactly its slot, raw kind byte included, and returns true; from 1024
on it returns false and changes nothing. The canonical form of the memory is the premise. -/
def Obligations.SlotWrite : Prop :=
  ∀ (s : State) (i : Nat) (r : Record), s.phase = .idle → Memory.wf s.slot →
    if i < 1024 then
      ∃ t, exec (.osWrite i r) s = .next t ∧ readSlot t i = some r ∧ OnlySlot i s t ∧
        Returned (.success true) s t ∧ t.draws = s.draws
    else ∃ t, exec (.osWrite i r) s = .next t ∧ ReturnedOnly (.success false) s t

/-- R121: os.read returns the stored record below 1024 and `absent` from there on, and changes
nothing. -/
def Obligations.SlotRead : Prop :=
  ∀ (s : State) (i : Nat), s.phase = .idle →
    ∃ t, exec (.osRead i) s = .next t ∧
      ReturnedOnly (.record (if i < 1024 then some (Memory.read s.slot i) else none)) s t

/-- What os.write stored os.read returns, whatever the kind byte (D6), and for every other slot what
it returned before. -/
def Obligations.SlotRoundTrip : Prop :=
  ∀ (s : State) (i j : Nat) (r : Record), s.phase = .idle → Memory.wf s.slot → i < 1024 → j < 1024 →
    ∃ t u, exec (.osWrite i r) s = .next t ∧ exec (.osRead j) t = .next u ∧
      ReturnedOnly (.record (if j = i then some r else readSlot s j)) t u

/-- R122: os.clear makes every slot the record Nop 0, 0, 0 and changes nothing else. -/
def Obligations.SlotClear : Prop :=
  ∀ s : State, s.phase = .idle → ∃ t, exec .osClear s = .next t ∧
    (∀ i, i < 1024 → readSlot t i = some ⟨0, 0, 0, 0⟩) ∧
    SameRegisters s t ∧ Returned .done s t ∧ t.draws = s.draws

/-- R256: reset and the two clears are idempotent (a second one right after the first leaves
registers, slots and control as they were) and independent (rf.clear leaves the slots, os.clear the
registers, and neither touches phase, busy or cur), and none of them touches what is waiting or puts
out anything but its own return. -/
def Obligations.ClearsIdempotent : Prop :=
  ∀ (s : State) (i : Instr), s.phase = .idle → i = .reset ∨ i = .rfClear ∨ i = .osClear →
    ∃ t u, exec i s = .next t ∧ exec i t = .next u ∧
      u.r32 = t.r32 ∧ u.r64 = t.r64 ∧ u.slot = t.slot ∧ SameControl t u ∧
      t.inputs = s.inputs ∧ t.events = s.events ++ [.result .done] ∧
      (i = .rfClear → t.slot = s.slot ∧ SameControl s t) ∧
      (i = .osClear → t.r32 = s.r32 ∧ t.r64 = s.r64 ∧ SameControl s t)

/- ## The dispatcher -/

/-- R144: Add32. -/
def Obligations.Add32Answers : Prop :=
  ∀ (s : State) (dst src0 src1 : Nat), s.phase = .idle →
    Answers32 (.add32 dst src0 src1) s dst src0 src1 (SumSpec 32 23)

/-- R145: Sub32, source0 the minuend (D14). -/
def Obligations.Sub32Answers : Prop :=
  ∀ (s : State) (dst src0 src1 : Nat), s.phase = .idle →
    Answers32 (.sub32 dst src0 src1) s dst src0 src1
      (fun a b r => SumSpec 32 23 a (flipSign 32 b) r)

/-- R146: Mul32. -/
def Obligations.Mul32Answers : Prop :=
  ∀ (s : State) (dst src0 src1 : Nat), s.phase = .idle →
    Answers32 (.mul32 dst src0 src1) s dst src0 src1 (ProductSpec 32 23)

/-- R147: Div32, source0 the dividend; a zero divisor is no failure. -/
def Obligations.Div32Answers : Prop :=
  ∀ (s : State) (dst src0 src1 : Nat), s.phase = .idle →
    Answers32 (.div32 dst src0 src1) s dst src0 src1 (QuotientSpec 32 23)

/-- R148: Add64. -/
def Obligations.Add64Answers : Prop :=
  ∀ (s : State) (dst src0 src1 : Nat), s.phase = .idle →
    Answers64 (.add64 dst src0 src1) s dst src0 src1 (SumSpec 64 52)

/-- R149: Sub64. -/
def Obligations.Sub64Answers : Prop :=
  ∀ (s : State) (dst src0 src1 : Nat), s.phase = .idle →
    Answers64 (.sub64 dst src0 src1) s dst src0 src1
      (fun a b r => SumSpec 64 52 a (flipSign 64 b) r)

/-- R150: Mul64. -/
def Obligations.Mul64Answers : Prop :=
  ∀ (s : State) (dst src0 src1 : Nat), s.phase = .idle →
    Answers64 (.mul64 dst src0 src1) s dst src0 src1 (ProductSpec 64 52)

/-- R151: Div64. -/
def Obligations.Div64Answers : Prop :=
  ∀ (s : State) (dst src0 src1 : Nat), s.phase = .idle →
    Answers64 (.div64 dst src0 src1) s dst src0 src1 (QuotientSpec 64 52)

/-- R155: SquareRoot64; source1 ignored, a negative argument no failure. -/
def Obligations.SquareRoot64Answers : Prop :=
  ∀ (s : State) (dst src0 src1 : Nat), s.phase = .idle →
    AnswersUnary (.squareRoot64 dst src0 src1) s dst src0 (RootSpec 64 52)

/-- R152 to R154, R170: the three transcendentals write their configuration function's result, or a
NaN where that is one; source1 ignored. -/
def Obligations.TranscendentalsAnswer : Prop :=
  ∀ (s : State) (dst src0 src1 : Nat), s.phase = .idle →
    AnswersUnary (.sine64 dst src0 src1) s dst src0 (FunctionSpec Config.sin64) ∧
    AnswersUnary (.cosine64 dst src0 src1) s dst src0 (FunctionSpec Config.cos64) ∧
    AnswersUnary (.tangent64 dst src0 src1) s dst src0 (FunctionSpec Config.tan64)

/-- R170 (a) to (e): what each optional hypothesis about a transcendental function `G` gives for the
entry its operation writes (vectors T1 to T6). The statement is about every `G`, so that no clause
rests on the open functions of the configuration. -/
def Obligations.OptionalHypotheses : Prop :=
  ∀ (G : Word64 → Word64) (s : State) (dst src0 : Nat) (a : Word64),
    dst < 256 → read64 s src0 = some a →
    ∃ r t, un64 (transcendental G) dst src0 s = .next t ∧ read64 t dst = some r ∧
      (NanGivesNan G → IsNaN 64 52 a → IsNaN 64 52 r) ∧
      (InfGivesNan G → IsInf 64 52 a → IsNaN 64 52 r) ∧
      (KeepsZero G → IsZero 64 52 a → r = a) ∧
      (ZeroGivesOne G → IsZero 64 52 a → r = 0x3FF0000000000000) ∧
      (BoundedByOne G → IsFinite 64 52 a → IsFinite 64 52 r ∧ |valueOf 64 52 r| ≤ 1) ∧
      (∀ (g : ℝ → ℝ) (k : ℕ), WithinUlps G g k → IsFinite 64 52 a →
        |(valueOf 64 52 r : ℝ) - g (valueOf 64 52 a)| ≤
          k * 2 ^ ((max (expField 64 52 r) 1 : ℤ) - 1075))

/-- R156: an unsupported identifier fails whatever the indices, and changes nothing. -/
def Obligations.UnsupportedFails : Prop :=
  ∀ (s : State) (op : Byte) (dst src0 src1 : Nat), s.phase = .idle → 12 ≤ op.toNat →
    (∃ t, exec (.unsupported op dst src0 src1) s = .next t ∧
      ReturnedOnly (.status .unsupportedOp) s t) ∧
    ∃ t, exec (.execute op dst src0 src1) s = .next t ∧ ReturnedOnly (.status .unsupportedOp) s t

/-- R157: which status an `execute` answers, in this order: UNSUPPORTED_OP, SRC_RANGE (source1 only
of a binary operation), DST_RANGE, Ok; and every failure changes nothing. -/
def Obligations.ExecuteCheckOrder : Prop :=
  ∀ (s : State) (op : Byte) (dst src0 src1 : Nat), s.phase = .idle →
    ∃ t, exec (.execute op dst src0 src1) s = .next t ∧
      if 12 ≤ op.toNat then ReturnedOnly (.status .unsupportedOp) s t
      else if 256 ≤ src0 ∨ (op.toNat < 8 ∧ 256 ≤ src1) then ReturnedOnly (.status .srcRange) s t
      else if 256 ≤ dst then ReturnedOnly (.status .dstRange) s t
      else Returned (.status .ok) s t

/-- R140: `execute` selects the operation of the request's identifier and does in every state what
that does; in Idle both answer the same next state. -/
def Obligations.ExecuteIsTheMultiplexer : Prop :=
  (∀ (s : State) (r : Request),
    exec (.execute r.op r.dst r.src0 r.src1) s = exec (decodeRequest r) s) ∧
  (∀ (s : State) (r : Request), s.phase = .idle →
    ∃ t, exec (.execute r.op r.dst r.src0 r.src1) s = .next t ∧ exec (decodeRequest r) s = .next t)

/-- R168: a draw is a NaN, whatever it is, and every NaN of the width is one a draw can be. -/
def Obligations.NanDraws : Prop :=
  (∀ n, IsNaN 32 23 (bits32 n .nan)) ∧ (∀ n, IsNaN 64 52 (bits64 n .nan)) ∧
  (∀ w : Word32, IsNaN 32 23 w → ∃ (neg : Bool) (f : Fin Config.nNaN32),
    w = BitVec.ofNat 32 (binary32.pack (neg, f.val + 1) .nan)) ∧
  (∀ w : Word64, IsNaN 64 52 w → ∃ (neg : Bool) (f : Fin Config.nNaN64),
    w = BitVec.ofNat 64 (binary64.pack (neg, f.val + 1) .nan))

/-- Reinterpretation is no conversion (R160, R161): a pattern that is no NaN comes back bit for bit. -/
def Obligations.ReinterpretationInverse : Prop :=
  (∀ (n : Nat) (w : Word32), ¬ IsNaN 32 23 w → bits32 n (f32 w) = w) ∧
  (∀ (n : Nat) (w : Word64), ¬ IsNaN 64 52 w → bits64 n (f64 w) = w)

/-- R105: an entry of the Register File changes only by W32, W64, write32, write64, a dispatcher
operation of its own family, rf.clear or reset. -/
def Obligations.OnlyWritersChangeRegisters : Prop :=
  ∀ (i : Instr) (s t : State), exec i s = .next t →
    ((mayWrite i).r32 = false → t.r32 = s.r32) ∧ ((mayWrite i).r64 = false → t.r64 = s.r64)

/-- A slot changes only by os.write, os.clear or reset: no bus transaction and no dispatcher
operation touches one (R12, R123, R198). -/
def Obligations.OnlyStoreChangesSlots : Prop :=
  ∀ (i : Instr) (s t : State), exec i s = .next t → (mayWrite i).slot = false → t.slot = s.slot
end

