-- ==== Sys2Proof/Laws/FloatPatterns.lean ====
section
/-! SUPPORT. The fields, the datum and the value of a bit pattern: `unpack` and `pack` of
Machine/Float.lean against the fields read off the bits in Safety.lean (R160, R161). -/

namespace Sys2Proof.Machine

/-- The model's format with `n` bits and `p` fraction bits. -/
def formatOf (n p : Nat) : FloatFormat := ⟨n - 1 - p, p⟩

theorem binary32_eq : binary32 = formatOf 32 23 := rfl
theorem binary64_eq : binary64 = formatOf 64 52 := rfl

section
variable {n p : Nat}

theorem maxExp_formatOf : (formatOf n p).maxExp = topExp n p := rfl

theorem bias_formatOf : (formatOf n p).bias = biasOf n p := by
  simp only [FloatFormat.bias, formatOf, biasOf]
  congr 2; omega

/-- The top exponent field is twice the bias and one more. -/
theorem topExp_eq (hn : p + 3 ≤ n) : topExp n p = 2 * biasOf n p + 1 := by
  have : n - 1 - p = n - 2 - p + 1 := by omega
  have h := Nat.one_le_two_pow (n := n - 2 - p)
  simp only [topExp, biasOf, this, pow_succ]
  omega

theorem fields_lt (hn : p + 3 ≤ n) (neg : Bool) (e f : Nat) (he : e ≤ topExp n p)
    (hf : f < 2 ^ p) : e * 2 ^ p + f < 2 ^ (n - 1) ∧ (formatOf n p).fields neg e f < 2 ^ n := by
  have h1 : 2 ^ (n - 1) = 2 ^ (n - 1 - p) * 2 ^ p := by rw [← pow_add]; congr 1; omega
  have h2 : 2 ^ n = 2 * 2 ^ (n - 1) := by rw [← pow_succ']; congr 1; omega
  have h3 : e * 2 ^ p + f < 2 ^ (n - 1) := by
    have : (e + 1) * 2 ^ p ≤ 2 ^ (n - 1 - p) * 2 ^ p := by
      apply Nat.mul_le_mul_right
      have := Nat.one_le_two_pow (n := n - 1 - p)
      simp only [topExp] at he; omega
    rw [h1]; nlinarith
  refine ⟨h3, ?_⟩
  simp only [FloatFormat.fields, formatOf]
  rw [show n - 1 - p + p = n - 1 by omega, h2]
  cases neg <;> simp <;> omega

/-- The fields of a pattern made from fields. -/
theorem fields_spec (hn : p + 3 ≤ n) (neg : Bool) (e f : Nat) (he : e ≤ topExp n p)
    (hf : f < 2 ^ p) :
    let w := BitVec.ofNat n ((formatOf n p).fields neg e f)
    w.toNat = (formatOf n p).fields neg e f ∧ expField n p w = e ∧ fracField n p w = f ∧
      w.msb = neg := by
  obtain ⟨h1, h2⟩ := fields_lt hn neg e f he hf
  have h0 : (BitVec.ofNat n ((formatOf n p).fields neg e f)).toNat =
      (formatOf n p).fields neg e f := by rw [BitVec.toNat_ofNat, Nat.mod_eq_of_lt h2]
  have hE : e < 2 ^ (n - 1 - p) := by
    have := Nat.one_le_two_pow (n := n - 1 - p)
    simp only [topExp] at he; omega
  have hform : (formatOf n p).fields neg e f
      = 2 ^ p * (neg.toNat * 2 ^ (n - 1 - p) + e) + f := by
    simp only [FloatFormat.fields, formatOf, pow_add]; ring
  refine ⟨h0, ?_, ?_, ?_⟩
  · rw [expField, h0, hform, Nat.mul_add_div (by positivity), Nat.div_eq_of_lt hf, add_zero,
      Nat.mul_comm, Nat.mul_add_mod, Nat.mod_eq_of_lt hE]
  · rw [fracField, h0, hform, Nat.mul_add_mod, Nat.mod_eq_of_lt hf]
  · have hsum : (formatOf n p).fields neg e f = neg.toNat * 2 ^ (n - 1) + (e * 2 ^ p + f) := by
      simp only [FloatFormat.fields, formatOf]
      rw [show n - 1 - p + p = n - 1 by omega]; ring
    rw [BitVec.msb_eq_decide, h0]
    cases neg
    · simpa [hsum] using h1
    · simp [hsum]

/-- What `unpack` finds is what the fields say (R160, R161). -/
theorem unpack_eq (hn : p + 3 ≤ n) (w : BitVec n) :
    (formatOf n p).unpack w.toNat =
      if expField n p w = 0 then
        if fracField n p w = 0 then .zero w.msb else .finite w.msb (fracField n p w) 1
      else if expField n p w = topExp n p then
        if fracField n p w = 0 then .infinity w.msb else .nan
      else .finite w.msb (2 ^ p + fracField n p w) (expField n p w) := by
  have hm : (w.toNat / 2 ^ (n - 1 - p + p) % 2 == 1) = w.msb := by
    rw [BitVec.msb_eq_decide, show n - 1 - p + p = n - 1 by omega]
    have h2 : 2 ^ n = 2 * 2 ^ (n - 1) := by rw [← pow_succ']; congr 1; omega
    have hlt := w.isLt
    rw [h2] at hlt
    by_cases h : 2 ^ (n - 1) ≤ w.toNat
    · have : w.toNat / 2 ^ (n - 1) = 1 := by
        rw [Nat.div_eq_iff (by positivity)]; constructor <;> omega
      simp [this, h]
    · have : w.toNat / 2 ^ (n - 1) = 0 := Nat.div_eq_of_lt (by omega)
      simp [this, h]
  simp only [FloatFormat.unpack, formatOf, hm]
  rfl

/-- The number of a pattern is its units (R160, R161). -/
theorem valueOf_eq (hn : p + 3 ≤ n) (w : BitVec n) (hw : IsFinite n p w) :
    valueOf n p w
      = (((formatOf n p).unpack w.toNat).value : ℚ) * 2 ^ (-((formatOf n p).unitExp : ℤ)) := by
  have hu : ((formatOf n p).unitExp : ℤ) = biasOf n p + p := by
    simp only [FloatFormat.unitExp, bias_formatOf]; push_cast; rfl
  have h2 : (2 : ℚ) ≠ 0 := by norm_num
  rw [unpack_eq hn, hu, valueOf]
  by_cases h0 : expField n p w = 0
  · by_cases hf : fracField n p w = 0
    · simp [h0, hf, Datum.value]
    · rw [show (1 : ℤ) - biasOf n p - p = 1 + -(biasOf n p + p : ℤ) by ring, zpow_add₀ h2]
      cases hs : w.msb <;> simp [h0, hf, Datum.value] <;> ring
  · rw [show (expField n p w : ℤ) - biasOf n p - p = expField n p w + -(biasOf n p + p : ℤ) by ring,
      zpow_add₀ h2, zpow_natCast]
    cases hs : w.msb <;> simp [h0, hw, Datum.value] <;> ring

/-- The units of a finite pattern: at most `p + 1` significant bits, counted at its exponent. -/
theorem units_form (hn : p + 3 ≤ n) (w : BitVec n) (hw : IsFinite n p w) :
    ∃ (s : ℤ) (m e : Nat), (s = 1 ∨ s = -1) ∧ m < 2 ^ (p + 1) ∧ 1 ≤ e ∧ 
      ((formatOf n p).unpack w.toNat).value = s * (m * 2 ^ e : ℕ) := by
  have hf : fracField n p w < 2 ^ p := Nat.mod_lt _ (by positivity)
  have hs : (if w.msb then (-1 : ℤ) else 1) = 1 ∨ (if w.msb then (-1 : ℤ) else 1) = -1 := by
    cases w.msb <;> simp
  rw [unpack_eq hn]
  by_cases h0 : expField n p w = 0
  · by_cases hz : fracField n p w = 0
    · exact ⟨1, 0, 1, .inl rfl, by positivity, le_refl _, by simp [h0, hz, Datum.value]⟩
    · refine ⟨if w.msb then -1 else 1, fracField n p w, 1, hs, by rw [pow_succ]; omega, le_refl _, ?_⟩
      cases hm : w.msb <;> simp [h0, hz, Datum.value]
  · refine ⟨if w.msb then -1 else 1, 2 ^ p + fracField n p w, expField n p w, hs,
      by rw [pow_succ]; omega, by omega, ?_⟩
    cases hm : w.msb <;> simp [h0, hw, Datum.value]

end

end Sys2Proof.Machine
end

