-- ==== Sys2Proof/Laws/Rounding.lean ====
section
/-! SUPPORT. The spec lemmas of the rounding functions: `rnd` and `sqrtUnits` deliver the pattern
that `RoundsTo` asks for (R162, R166). -/

namespace Sys2Proof.Machine

/- ## The integer nearest -/

theorem nearestEven_spec (k : Nat) (x : ℝ) (hk : (k : ℝ) ≤ x) (hk' : x < k + 1) (o : Ordering)
    (ho : (o = .lt ∧ x < k + 1 / 2) ∨ (o = .eq ∧ x = k + 1 / 2) ∨ (o = .gt ∧ k + 1 / 2 < x)) :
    |x - nearestEven k o| ≤ 1 / 2 ∧ (|x - nearestEven k o| = 1 / 2 → nearestEven k o % 2 = 0) := by
  rcases ho with ⟨rfl, h⟩ | ⟨rfl, h⟩ | ⟨rfl, h⟩
  · simp only [nearestEven]
    have hx : |x - k| < 1 / 2 := by rw [abs_lt]; constructor <;> linarith
    exact ⟨hx.le, fun he => absurd he (ne_of_lt hx)⟩
  · subst h
    by_cases hp : k % 2 = 0
    · simp only [nearestEven, hp, if_true]
      exact ⟨le_of_eq (by rw [show (k : ℝ) + 1 / 2 - k = 1 / 2 by ring]; norm_num), fun _ => trivial⟩
    · simp only [nearestEven, hp, if_false]
      refine ⟨le_of_eq ?_, fun _ => by omega⟩
      push_cast
      rw [show (k : ℝ) + 1 / 2 - (k + 1) = -(1 / 2) by ring, abs_neg]; norm_num
  · simp only [nearestEven]
    have hx : |x - ((k + 1 : ℕ) : ℝ)| < 1 / 2 := by
      push_cast; rw [abs_lt]; constructor <;> linarith
    exact ⟨hx.le, fun he => absurd he (ne_of_lt hx)⟩

/-- `roundQuotient` is the integer nearest the quotient, ties to even (R162). -/
theorem roundQuotient_spec (num den : Nat) (hd : 0 < den) :
    |(num / den : ℝ) - roundQuotient num den| ≤ 1 / 2 ∧
      (|(num / den : ℝ) - roundQuotient num den| = 1 / 2 → roundQuotient num den % 2 = 0) := by
  have hdr : (0 : ℝ) < den := by exact_mod_cast hd
  have e := Nat.div_add_mod num den
  have l := Nat.mod_lt num hd
  have er : (num : ℝ) = den * (num / den : ℕ) + (num % den : ℕ) := by exact_mod_cast e.symm
  have lr : ((num % den : ℕ) : ℝ) < den := by exact_mod_cast l
  have l0 : (0 : ℝ) ≤ ((num % den : ℕ) : ℝ) := by positivity
  unfold roundQuotient
  apply nearestEven_spec
  · rw [le_div_iff₀ hdr]; nlinarith
  · rw [div_lt_iff₀ hdr]; nlinarith
  · generalize hq : num / den = q at *
    rcases lt_trichotomy (2 * num) ((2 * q + 1) * den) with h | h | h
    · left
      refine ⟨Nat.compare_eq_lt.mpr h, ?_⟩
      have h' : (2 : ℝ) * num < (2 * q + 1) * den := by exact_mod_cast h
      rw [div_lt_iff₀ hdr]; nlinarith
    · right; left
      refine ⟨Nat.compare_eq_eq.mpr h, ?_⟩
      have h' : (2 : ℝ) * num = (2 * q + 1) * den := by exact_mod_cast h
      rw [div_eq_iff hdr.ne']; nlinarith
    · right; right
      refine ⟨Nat.compare_eq_gt.mpr h, ?_⟩
      have h' : (2 * q + 1) * den < (2 : ℝ) * num := by exact_mod_cast h
      rw [lt_div_iff₀ hdr]; nlinarith

section
variable {n p : Nat}

/-- No value of the format is nearer to `X` units than the nearest multiple of the spacing `2 ^ e`
(R162). -/
theorem nearest_units (X : ℝ) (m e : Nat) (hge : e = 1 ∨ 2 ^ (e + p) ≤ X)
    (hm : |X - m * 2 ^ e| ≤ 2 ^ e / 2) (htie : |X - m * 2 ^ e| = 2 ^ e / 2 → m % 2 = 0)
    (s : ℤ) (hs : s = 1 ∨ s = -1) (mw ew : Nat) (hmw : mw < 2 ^ (p + 1)) (hew : 1 ≤ ew) :
    |X - m * 2 ^ e| ≤ |X - (s * (mw * 2 ^ ew : ℕ) : ℤ)| ∧
      (|X - m * 2 ^ e| = |X - (s * (mw * 2 ^ ew : ℕ) : ℤ)| →
        ((s * (mw * 2 ^ ew : ℕ) : ℤ) : ℝ) = m * 2 ^ e ∨ m % 2 = 0) := by
  have hq : (0 : ℝ) < 2 ^ e := by positivity
  -- a multiple of the spacing
  have mult : ∀ k : ℤ, |X - m * 2 ^ e| ≤ |X - k * 2 ^ e| ∧
      (|X - m * 2 ^ e| = |X - k * 2 ^ e| → (k : ℝ) * 2 ^ e = m * 2 ^ e ∨ m % 2 = 0) := by
    intro k
    by_cases hk : k = m
    · subst hk; simp
    · have h1 : (1 : ℝ) ≤ |(k : ℝ) - m| := by
        have : (1 : ℤ) ≤ |k - m| := Int.one_le_abs (sub_ne_zero.mpr hk)
        exact_mod_cast this
      have h2 : (2 : ℝ) ^ e ≤ |(k : ℝ) * 2 ^ e - m * 2 ^ e| := by
        rw [← sub_mul, abs_mul, abs_of_pos hq]; nlinarith
      have h3 : |(k : ℝ) * 2 ^ e - m * 2 ^ e| ≤ |X - k * 2 ^ e| + |X - m * 2 ^ e| := by
        calc |(k : ℝ) * 2 ^ e - m * 2 ^ e| = |(X - m * 2 ^ e) - (X - k * 2 ^ e)| := by congr 1; ring
          _ ≤ |X - m * 2 ^ e| + |X - k * 2 ^ e| := abs_sub _ _
          _ = _ := add_comm _ _
      exact ⟨by linarith, fun heq => .inr (htie (by linarith))⟩
  by_cases hle : e ≤ ew
  · have : ((s * (mw * 2 ^ ew : ℕ) : ℤ) : ℝ) = ((s * mw * 2 ^ (ew - e) : ℤ) : ℝ) * 2 ^ e := by
      push_cast
      rw [mul_assoc ((s : ℝ) * mw), ← pow_add, Nat.sub_add_cancel hle]; ring
    rw [this]
    exact mult _
  · push Not at hle
    have hX : (2 : ℝ) ^ (e + p) ≤ X := by
      rcases hge with h | h
      · omega
      · exact h
    have hW : ((s * (mw * 2 ^ ew : ℕ) : ℤ) : ℝ) < 2 ^ (e + p) := by
      have h1 : mw * 2 ^ ew < 2 ^ (p + 1) * 2 ^ ew := Nat.mul_lt_mul_of_pos_right hmw (by positivity)
      have h2 : 2 ^ (p + 1) * 2 ^ ew ≤ 2 ^ (e + p) := by
        rw [← pow_add]; exact Nat.pow_le_pow_right (by norm_num) (by omega)
      have h3 : mw * 2 ^ ew < 2 ^ (e + p) := lt_of_lt_of_le h1 h2
      have h4 : (s * (mw * 2 ^ ew : ℕ) : ℤ) < ((2 ^ (e + p) : ℕ) : ℤ) := by
        rcases hs with rfl | rfl
        · simpa using (by exact_mod_cast h3 : ((mw * 2 ^ ew : ℕ) : ℤ) < ((2 ^ (e + p) : ℕ) : ℤ))
        · have : (0 : ℤ) ≤ ((mw * 2 ^ ew : ℕ) : ℤ) := by positivity
          have : (0 : ℤ) < ((2 ^ (e + p) : ℕ) : ℤ) := by positivity
          linarith
      exact_mod_cast h4
    have h5 := (mult (2 ^ p : ℤ)).1
    have h6 : ((2 ^ p : ℤ) : ℝ) * 2 ^ e = 2 ^ (e + p) := by push_cast; rw [← pow_add, add_comm]
    rw [h6, abs_of_nonneg (sub_nonneg.mpr hX)] at h5
    have h7 : |X - ((s * (mw * 2 ^ ew : ℕ) : ℤ) : ℝ)| = X - ((s * (mw * 2 ^ ew : ℕ) : ℤ) : ℝ) :=
      abs_of_pos (by linarith)
    rw [h7]
    exact ⟨by linarith, fun heq => by linarith⟩

/-- The overflow test of `deliver` is the threshold of R162 seen from `X`. -/
theorem overflow_units (hn : p + 3 ≤ n) (X : ℝ) (m e : Nat)
    (hlt : X < 2 ^ (e + p + 1)) (hge : e = 1 ∨ 2 ^ (e + p) ≤ X)
    (hm : |X - m * 2 ^ e| ≤ 2 ^ e / 2) (htie : |X - m * 2 ^ e| = 2 ^ e / 2 → m % 2 = 0) :
    2 ^ (topExp n p + p) ≤ m * 2 ^ e ↔ (2 ^ (p + 1) - 1 / 2) * 2 ^ (2 * biasOf n p) ≤ X := by
  have htop := topExp_eq hn
  set B := 2 * biasOf n p with hB
  have hB1 : 2 ≤ B := by
    have : 2 ^ 1 ≤ 2 ^ (n - 2 - p) := Nat.pow_le_pow_right (by norm_num) (by omega)
    simp only [hB, biasOf]; omega
  have hq : (0 : ℝ) < 2 ^ e := by positivity
  have hqB : (0 : ℝ) < 2 ^ B := by positivity
  have hp1 : (2 : ℝ) ≤ 2 ^ (p + 1) := by
    calc (2 : ℝ) = 2 ^ 1 := by norm_num
      _ ≤ _ := pow_le_pow_right₀ (by norm_num) (by omega)
  obtain ⟨hm1, hm2⟩ := abs_le.mp hm
  have hmle : m ≤ 2 ^ (p + 1) := by
    by_contra hc
    have h1 : (2 ^ (p + 1) + 1 : ℝ) ≤ m := by exact_mod_cast (by omega : 2 ^ (p + 1) + 1 ≤ m)
    have h2 : (2 : ℝ) ^ (e + p + 1) = 2 ^ (p + 1) * 2 ^ e := by rw [← pow_add]; congr 1; omega
    nlinarith
  rw [htop]
  constructor
  · intro h
    by_contra hX
    push Not at hX
    have hR : (2 : ℝ) ^ (B + 1 + p) ≤ m * 2 ^ e := by exact_mod_cast h
    have e1 : (2 : ℝ) ^ (B + 1 + p) = 2 ^ (p + 1) * 2 ^ B := by rw [← pow_add]; congr 1; omega
    have heB : B ≤ e := by
      by_contra hc
      have h3 : (2 : ℝ) ^ e * 2 ≤ 2 ^ B := by
        rw [← pow_succ]; exact pow_le_pow_right₀ (by norm_num) (by omega)
      have h4 : (m : ℝ) ≤ 2 ^ (p + 1) := by exact_mod_cast hmle
      nlinarith
    have heB' : e ≤ B := by
      by_contra hc
      rcases hge with h5 | h5
      · omega
      · have : (2 : ℝ) ^ (B + 1 + p) ≤ 2 ^ (e + p) := pow_le_pow_right₀ (by norm_num) (by omega)
        nlinarith
    have : e = B := by omega
    subst this
    have h6 : (m : ℝ) < 2 ^ (p + 1) := by nlinarith
    nlinarith
  · intro hX
    have goal : (2 : ℝ) ^ (B + 1 + p) ≤ m * 2 ^ e := by
      have e1 : (2 : ℝ) ^ (B + 1 + p) = 2 ^ (p + 1) * 2 ^ B := by rw [← pow_add]; congr 1; omega
      have e2 : (2 : ℝ) ^ (e + p + 1) = 2 ^ (p + 1) * 2 ^ e := by rw [← pow_add]; congr 1; omega
      have heB : B ≤ e := by
        by_contra hc
        have h3 : (2 : ℝ) ^ e * 2 ≤ 2 ^ B := by
          rw [← pow_succ]; exact pow_le_pow_right₀ (by norm_num) (by omega)
        nlinarith
      rcases Nat.lt_or_ge B e with hlt' | hge'
      · have h5 : (2 : ℝ) ^ (e + p) ≤ X := by
          rcases hge with h | h
          · omega
          · exact h
        have e3 : (2 : ℝ) ^ (e + p) = 2 ^ p * 2 ^ e := by rw [← pow_add]; congr 1; omega
        have h6 : 2 ^ p ≤ m := by
          by_contra hc
          have : (m : ℝ) + 1 ≤ 2 ^ p := by exact_mod_cast (by omega : m + 1 ≤ 2 ^ p)
          nlinarith
        have h7 : (2 : ℝ) ^ (B + 1 + p) ≤ 2 ^ (e + p) := pow_le_pow_right₀ (by norm_num) (by omega)
        have h8 : (2 : ℝ) ^ p ≤ m := by exact_mod_cast h6
        nlinarith
      · have : e = B := by omega
        subst this
        by_contra hc
        push Not at hc
        have h6 : (m : ℝ) < 2 ^ (p + 1) := by nlinarith
        have h7 : m + 1 ≤ 2 ^ (p + 1) := by
          have : m < 2 ^ (p + 1) := by exact_mod_cast h6
          omega
        have h8 : (m : ℝ) + 1 ≤ 2 ^ (p + 1) := by exact_mod_cast h7
        have h9 : |X - m * 2 ^ B| = 2 ^ B / 2 := by
          rw [abs_of_nonneg (by nlinarith)]
          nlinarith
        have h10 := htie h9
        have h11 : m = 2 ^ (p + 1) - 1 := by
          have : (2 : ℝ) ^ (p + 1) ≤ m + 1 := by nlinarith
          have : 2 ^ (p + 1) ≤ m + 1 := by exact_mod_cast this
          omega
        rw [pow_succ] at h11
        have := Nat.one_le_two_pow (n := p)
        omega
    exact_mod_cast goal

/-- The pattern that `deliver` ends in, when it does not overflow (R162). -/
theorem deliver_finite (hn : p + 3 ≤ n) (hp : 1 ≤ p) (neg : Bool) (m e : Nat) (nf : Bool × Nat)
    (he : 1 ≤ e) (hsub : e = 1 ∨ 2 ^ p ≤ m) (hmle : m ≤ 2 ^ (p + 1))
    (hov : m * 2 ^ e < 2 ^ (topExp n p + p)) :
    let r := BitVec.ofNat n ((formatOf n p).pack nf ((formatOf n p).deliver neg m e))
    IsFinite n p r ∧ r.msb = neg ∧ r.toNat % 2 = m % 2 ∧
      ((formatOf n p).unpack r.toNat).value = (if neg then -1 else 1) * (m * 2 ^ e : ℕ) := by
  have htop := topExp_eq hn
  have hB1 : 1 ≤ biasOf n p := by
    have : 2 ^ 1 ≤ 2 ^ (n - 2 - p) := Nat.pow_le_pow_right (by norm_num) (by omega)
    simp only [biasOf]; omega
  have h2p : 0 < 2 ^ p := by positivity
  have h2s : 2 ^ (p + 1) = 2 * 2 ^ p := by rw [pow_succ]; ring
  have even : ∀ e f : Nat, ((formatOf n p).fields neg e f) % 2 = f % 2 := by
    intro e f
    have h1 : (2 : ℕ) ^ p = 2 * 2 ^ (p - 1) := by rw [← pow_succ']; congr 1; omega
    have h2 : (2 : ℕ) ^ (n - 1) = 2 * 2 ^ (n - 2) := by rw [← pow_succ']; congr 1; omega
    simp only [FloatFormat.fields, formatOf]
    rw [show n - 1 - p + p = n - 1 by omega, h2, h1,
      show neg.toNat * (2 * 2 ^ (n - 2)) + e * (2 * 2 ^ (p - 1)) + f
        = 2 * (neg.toNat * 2 ^ (n - 2) + e * 2 ^ (p - 1)) + f by ring, Nat.mul_add_mod]
  have key : ∀ e' f : Nat, e' < topExp n p → f < 2 ^ p → 
      let r := BitVec.ofNat n ((formatOf n p).fields neg e' f)
      IsFinite n p r ∧ r.msb = neg ∧ r.toNat % 2 = f % 2 ∧
      ((formatOf n p).unpack r.toNat).value =
        (if neg then -1 else 1) * (if e' = 0 then f * 2 else (2 ^ p + f) * 2 ^ e' : ℕ) := by
    intro e' f he' hf
    obtain ⟨h1, h2, h3, h4⟩ := fields_spec hn neg e' f he'.le hf
    refine ⟨by rw [IsFinite, h2]; omega, h4, by rw [h1, even], ?_⟩
    rw [unpack_eq hn, h2, h3, h4]
    by_cases h0 : e' = 0
    · by_cases hf0 : f = 0
      · simp [h0, hf0, Datum.value]
      · cases neg <;> simp [h0, hf0, Datum.value]
    · have : e' ≠ topExp n p := by omega
      cases neg <;> simp [h0, this, Datum.value]
  have hF : (formatOf n p).fracBits = p := rfl
  have hT : (formatOf n p).maxExp = topExp n p := rfl
  simp only [FloatFormat.deliver, hF, hT]
  by_cases hm0 : m = 0
  · subst hm0
    simp only [if_true, FloatFormat.pack]
    obtain ⟨a, b, c, d⟩ := key 0 0 (by omega) h2p
    exact ⟨a, b, c, by rw [d]; simp⟩
  · rw [if_neg hm0, if_neg (by omega)]
    by_cases hmax : m = 2 ^ (p + 1)
    · rw [if_pos hmax]
      have he1 : e + 1 < topExp n p := by
        have h : 2 ^ (p + 1 + e) < 2 ^ (topExp n p + p) := by rw [pow_add, ← hmax]; exact hov
        have := (Nat.pow_lt_pow_iff_right (a := 2) (by norm_num)).mp h
        omega
      simp only [FloatFormat.pack, hF, lt_irrefl, if_false, Nat.sub_self]
      obtain ⟨a, b, c, d⟩ := key (e + 1) 0 he1 h2p
      refine ⟨a, b, by rw [c, hmax, h2s]; omega, ?_⟩
      rw [d, hmax]
      simp only [Nat.add_eq_zero_iff, one_ne_zero, and_false, if_false, add_zero]
      congr 2
      rw [pow_succ, pow_succ]; ring
    · rw [if_neg hmax]
      simp only [FloatFormat.pack, hF]
      by_cases hlow : m < 2 ^ p
      · rw [if_pos hlow]
        have he1 : e = 1 := by omega
        subst he1
        obtain ⟨a, b, c, d⟩ := key 0 m (by omega) hlow
        exact ⟨a, b, c, by rw [d]; simp⟩
      · rw [if_neg hlow]
        have he1 : e < topExp n p := by
          have h : 2 ^ (p + e) < 2 ^ (topExp n p + p) :=
            lt_of_le_of_lt (by rw [pow_add]; exact Nat.mul_le_mul_right _ (by omega)) hov
          have := (Nat.pow_lt_pow_iff_right (a := 2) (by norm_num)).mp h
          omega
        obtain ⟨f, rfl⟩ := Nat.exists_eq_add_of_le (not_lt.mp hlow)
        rw [Nat.add_sub_cancel_left]
        obtain ⟨a, b, c, d⟩ := key e f he1 (by omega)
        have hev : 2 ^ p % 2 = 0 := by
          have h1 : (2 : ℕ) ^ p = 2 * 2 ^ (p - 1) := by rw [← pow_succ']; congr 1; omega
          omega
        exact ⟨a, b, by rw [c]; omega, by rw [d, if_neg (by omega : e ≠ 0)]⟩

end

section
variable {n p : Nat}

theorem pack_infinity (hn : p + 3 ≤ n) (nf : Bool × Nat) (neg : Bool) :
    let r := BitVec.ofNat n ((formatOf n p).pack nf (.infinity neg))
    IsInf n p r ∧ r.msb = neg := by
  obtain ⟨-, h2, h3, h4⟩ := fields_spec hn neg (topExp n p) 0 le_rfl (by positivity)
  exact ⟨⟨h2, h3⟩, h4⟩

/-- SPEC LEMMA of `deliver`: an exact magnitude of `X` units, counted as the nearest integer `m` of
spacings `2 ^ e`, ends in the pattern R162 asks for. -/
theorem roundsTo_deliver (hn : p + 3 ≤ n) (hp : 1 ≤ p) (neg : Bool) (X : ℝ) (hX : 0 < X) (m e : Nat)
    (he : 1 ≤ e) (hlt : X < 2 ^ (e + p + 1)) (hge : e = 1 ∨ 2 ^ (e + p) ≤ X)
    (hm : |X - m * 2 ^ e| ≤ 2 ^ e / 2) (htie : |X - m * 2 ^ e| = 2 ^ e / 2 → m % 2 = 0)
    (nf : Bool × Nat) :
    RoundsTo n p ((if neg then -1 else 1) * X * 2 ^ (-((formatOf n p).unitExp : ℤ)))
      (BitVec.ofNat n ((formatOf n p).pack nf ((formatOf n p).deliver neg m e))) := by
  have hq : (0 : ℝ) < 2 ^ e := by positivity
  obtain ⟨hm1, hm2⟩ := abs_le.mp hm
  have hmle : m ≤ 2 ^ (p + 1) := by
    by_contra hc
    have h1 : (2 ^ (p + 1) + 1 : ℝ) ≤ m := by exact_mod_cast (by omega : 2 ^ (p + 1) + 1 ≤ m)
    have h2 : (2 : ℝ) ^ (e + p + 1) = 2 ^ (p + 1) * 2 ^ e := by rw [← pow_add]; congr 1; omega
    nlinarith
  have hsub : e = 1 ∨ 2 ^ p ≤ m := by
    refine hge.imp id fun h => ?_
    by_contra hc
    have h1 : (m : ℝ) + 1 ≤ 2 ^ p := by exact_mod_cast (by omega : m + 1 ≤ 2 ^ p)
    have h2 : (2 : ℝ) ^ (e + p) = 2 ^ p * 2 ^ e := by rw [← pow_add]; congr 1; omega
    nlinarith
  have hov := overflow_units hn X m e hlt hge hm htie
  have hu : ((formatOf n p).unitExp : ℤ) = biasOf n p + p := by
    simp only [FloatFormat.unitExp, bias_formatOf]; push_cast; rfl
  set c : ℝ := 2 ^ (-((formatOf n p).unitExp : ℤ)) with hc
  have hc0 : 0 < c := by positivity
  have hthr : (2 - 1 / 2 ^ (p + 1) : ℝ) * 2 ^ biasOf n p
      = (2 ^ (p + 1) - 1 / 2) * 2 ^ (2 * biasOf n p) * c := by
    have h1 : c * 2 ^ (biasOf n p) * 2 ^ p = 1 := by
      rw [hc, hu, zpow_neg, zpow_add₀ (by norm_num), zpow_natCast, zpow_natCast]
      field_simp
    have h2 : (2 : ℝ) ^ (2 * biasOf n p) = 2 ^ biasOf n p * 2 ^ biasOf n p := by
      rw [two_mul, pow_add]
    have hpp : (0 : ℝ) < 2 ^ p := by positivity
    rw [h2, pow_succ]
    calc (2 - 1 / (2 ^ p * 2) : ℝ) * 2 ^ biasOf n p
        = (2 - 1 / (2 ^ p * 2) : ℝ) * 2 ^ biasOf n p * (c * 2 ^ (biasOf n p) * 2 ^ p) := by
          rw [h1, mul_one]
      _ = _ := by field_simp
  have habs : |(if neg then -1 else 1) * X * c| = X * c := by
    rw [abs_mul, abs_mul, abs_of_pos hX, abs_of_pos hc0]
    cases neg <;> simp
  have hsign : (if neg then -1 else 1) * X * c < 0 ↔ neg = true := by
    have := mul_pos hX hc0
    cases neg
    · simpa using this.le
    · simpa using this
  by_cases hbig : 2 ^ (topExp n p + p) ≤ m * 2 ^ e
  · have hinf : (formatOf n p).deliver neg m e = .infinity neg := by
      have hm0 : m ≠ 0 := by
        rintro rfl
        simp at hbig
      have hF : (formatOf n p).fracBits = p := rfl
      have hT : (formatOf n p).maxExp = topExp n p := rfl
      simp only [FloatFormat.deliver, hF, hT]
      rw [if_neg hm0, if_pos hbig]
    rw [hinf]
    obtain ⟨h1, h2⟩ := pack_infinity hn nf neg
    refine ⟨by rw [h2, hsign], fun _ => h1, fun h => ?_⟩
    rw [habs, hthr] at h
    exact absurd (hov.mp hbig) (not_le.mpr (lt_of_mul_lt_mul_right h hc0.le))
  · obtain ⟨h1, h2, h3, h4⟩ := deliver_finite hn hp neg m e nf he hsub hmle (not_le.mp hbig)
    refine ⟨by rw [h2, hsign], fun h => ?_, fun _ => ⟨h1, fun w hw => ?_⟩⟩
    · rw [habs, hthr] at h
      exact absurd (hov.mpr (le_of_mul_le_mul_right h hc0)) hbig
    · obtain ⟨s, mw, ew, hs, hmw, hew, hval⟩ := units_form hn w hw
      set σ : ℤ := if neg then -1 else 1 with hσ
      have hσσ : σ * σ = 1 := by rw [hσ]; cases neg <;> simp
      have hσa : |(σ : ℝ)| = 1 := by rw [hσ]; cases neg <;> simp
      have hx : (if neg then -1 else 1) * X * c = (σ : ℝ) * X * c := by
        rw [hσ]; cases neg <;> simp
      have hr : (valueOf n p (BitVec.ofNat n ((formatOf n p).pack nf
          ((formatOf n p).deliver neg m e))) : ℝ) = σ * (m * 2 ^ e) * c := by
        rw [valueOf_eq hn _ h1, h4, hc]
        push_cast
        rfl
      have hwv : (valueOf n p w : ℝ) = σ * ((σ * s * (mw * 2 ^ ew : ℕ) : ℤ) : ℝ) * c := by
        rw [valueOf_eq hn _ hw, hval, hc]
        have : (σ : ℝ) * ((σ * s * (mw * 2 ^ ew : ℕ) : ℤ) : ℝ) = ((s * (mw * 2 ^ ew : ℕ) : ℤ) : ℝ) := by
          rw [← Int.cast_mul, ← mul_assoc, ← mul_assoc, hσσ, one_mul]
        rw [this]
        push_cast
        rfl
      have hs' : σ * s = 1 ∨ σ * s = -1 := by
        rw [hσ]; rcases hs with rfl | rfl <;> cases neg <;> simp
      obtain ⟨k1, k2⟩ := nearest_units X m e hge hm htie (σ * s) hs' mw ew hmw hew
      have dist : ∀ y : ℝ, |σ * y * c - (σ : ℝ) * X * c| = |X - y| * c := by
        intro y
        rw [← sub_mul, ← mul_sub, abs_mul, abs_mul, hσa, one_mul, abs_of_pos hc0, abs_sub_comm]
      rw [hx, hr, hwv, dist, dist]
      refine ⟨mul_le_mul_of_nonneg_right k1 hc0.le, fun heq => ?_⟩
      rcases k2 (mul_right_cancel₀ hc0.ne' heq) with h | h
      · left
        have : (valueOf n p w : ℝ) = (valueOf n p (BitVec.ofNat n ((formatOf n p).pack nf
          ((formatOf n p).deliver neg m e))) : ℝ) := by rw [hr, hwv, h]
        exact_mod_cast this
      · right; rw [h3]; exact h

/-- SPEC LEMMA of `rnd` (R162): the exact magnitude of `num / den` units. -/
theorem roundsTo_rnd (hn : p + 3 ≤ n) (hp : 1 ≤ p) (neg : Bool) (num den : Nat) (hnum : 0 < num)
    (hden : 0 < den) (nf : Bool × Nat) :
    RoundsTo n p
      ((if neg then -1 else 1) * (num / den : ℝ) * 2 ^ (-((formatOf n p).unitExp : ℤ)))
      (BitVec.ofNat n ((formatOf n p).pack nf ((formatOf n p).rnd neg num den))) := by
  have hnr : (0 : ℝ) < num := by exact_mod_cast hnum
  have hdr : (0 : ℝ) < den := by exact_mod_cast hden
  have hF : (formatOf n p).fracBits = p := rfl
  simp only [FloatFormat.rnd, hF]
  set e := max ((num / den).log2 - p) 1 with he
  have hq : (0 : ℝ) < 2 ^ e := by positivity
  have he1 : 1 ≤ e := le_max_right _ _
  have hup : num / den < 2 ^ (e + p + 1) := by
    have h1 : (num / den).log2 - p ≤ e := le_max_left _ _
    exact lt_of_lt_of_le Nat.lt_log2_self (Nat.pow_le_pow_right (by norm_num) (by omega))
  have hlow : e = 1 ∨ 2 ^ (e + p) ≤ num / den := by
    rcases Nat.lt_or_ge 1 ((num / den).log2 - p) with h | h
    · right
      have hne : num / den ≠ 0 := by
        intro h0; rw [h0] at h; simp at h
      have : e + p = (num / den).log2 := by omega
      rw [this]
      exact Nat.log2_self_le hne
    · left; omega
  obtain ⟨r1, r2⟩ := roundQuotient_spec num (den * 2 ^ e) (by positivity)
  have hscale : ∀ k : ℝ, |(num / den : ℝ) - k * 2 ^ e|
      = |(num / (den * 2 ^ e : ℕ) : ℝ) - k| * 2 ^ e := by
    intro k
    rw [← abs_of_pos hq, ← abs_mul, abs_of_pos hq, sub_mul]
    congr 2
    push_cast
    field_simp
  apply roundsTo_deliver hn hp neg _ (by positivity) _ e he1
  · rw [div_lt_iff₀ hdr]
    have : num < 2 ^ (e + p + 1) * den := (Nat.div_lt_iff_lt_mul hden).mp hup
    exact_mod_cast this
  · refine hlow.imp id fun h => ?_
    rw [le_div_iff₀ hdr]
    have : 2 ^ (e + p) * den ≤ num := (Nat.le_div_iff_mul_le hden).mp h
    exact_mod_cast this
  · rw [hscale]; nlinarith
  · intro h
    rw [hscale] at h
    exact r2 (by nlinarith)

/-- `isqrtFrom` refines a lower bound of the root bit by bit. -/
theorem isqrtFrom_spec (N : Nat) : ∀ (bits r : Nat), r * r ≤ N →
    N < (r + 2 ^ bits) * (r + 2 ^ bits) →
    isqrtFrom N bits r * isqrtFrom N bits r ≤ N ∧
      N < (isqrtFrom N bits r + 1) * (isqrtFrom N bits r + 1) := by
  intro bits
  induction bits with
  | zero => intro r h1 h2; simpa [isqrtFrom] using ⟨h1, by simpa using h2⟩
  | succ b ih =>
    intro r h1 h2
    unfold isqrtFrom
    have h2b : 2 ^ (b + 1) = 2 ^ b + 2 ^ b := by rw [pow_succ]; ring
    split
    · next h =>
      refine ih _ h ?_
      rw [Nat.add_assoc, ← h2b]; exact h2
    · next h => exact ih _ h1 (not_le.mp h)

/-- SPEC LEMMA of `sqrtUnits` (R166 row 5). -/
theorem roundsTo_sqrtUnits (hn : p + 3 ≤ n) (hp : 1 ≤ p) (u : Nat) (hu : 0 < u)
    (hbig : 2 ^ (2 * (p + 1)) ≤ u * 2 ^ (formatOf n p).unitExp) (nf : Bool × Nat) :
    RoundsTo n p
      (Real.sqrt (u * 2 ^ (-((formatOf n p).unitExp : ℤ))))
      (BitVec.ofNat n ((formatOf n p).pack nf ((formatOf n p).sqrtUnits u))) := by
  have hF : (formatOf n p).fracBits = p := rfl
  simp only [FloatFormat.sqrtUnits, hF]
  set K := (formatOf n p).unitExp with hK
  set N := u * 2 ^ K with hN
  set e := max (N.log2 / 2 - p) 1 with he
  have hN0 : N ≠ 0 := by positivity
  have hq : (0 : ℝ) < 2 ^ e := by positivity
  have hq4 : (0 : ℝ) < 4 ^ e := by positivity
  have h4e : (4 : ℝ) ^ e = 2 ^ e * 2 ^ e := by rw [← mul_pow]; norm_num
  have hlog : p + 1 ≤ N.log2 / 2 := by
    have : 2 * (p + 1) ≤ N.log2 := (Nat.le_log2 hN0).mpr hbig
    omega
  have hee : e + p = N.log2 / 2 := by omega
  have he1 : 1 ≤ e := le_max_right _ _
  have hNlow : 2 ^ (2 * (e + p)) ≤ N :=
    le_trans (Nat.pow_le_pow_right (by norm_num) (by omega)) (Nat.log2_self_le hN0)
  have hNup : N < 2 ^ (2 * (e + p + 1)) :=
    lt_of_lt_of_le Nat.lt_log2_self (Nat.pow_le_pow_right (by norm_num) (by omega))
  -- the root counted in units
  set X := Real.sqrt N with hXdef
  have hXX : X * X = N := Real.mul_self_sqrt (by positivity)
  have hX0 : 0 ≤ X := Real.sqrt_nonneg _
  have hXpos : 0 < X := Real.sqrt_pos.mpr (by positivity)
  have hroot : Real.sqrt (u * 2 ^ (-(K : ℤ))) = (if false then -1 else 1) * X * 2 ^ (-(K : ℤ)) := by
    simp only [Bool.false_eq_true, if_false, one_mul]
    rw [show (u : ℝ) * 2 ^ (-(K : ℤ)) = (X * 2 ^ (-(K : ℤ))) ^ 2 by
      rw [mul_pow, pow_two X, hXX, hN]
      push_cast
      rw [zpow_neg, zpow_natCast]
      field_simp]
    rw [Real.sqrt_sq (by positivity)]
  rw [hroot]
  -- the integer root
  set M := N / 4 ^ e with hM
  have hM4 : M * 4 ^ e ≤ N := Nat.div_mul_le_self _ _
  have hM4' : N < (M + 1) * 4 ^ e := by
    have := Nat.lt_div_mul_add (a := N) (b := 4 ^ e) (by positivity)
    rw [Nat.add_mul, one_mul]; omega
  have hMup : M < 2 ^ (p + 2) * 2 ^ (p + 2) := by
    rw [hM, Nat.div_lt_iff_lt_mul (by positivity)]
    refine lt_of_lt_of_le hNup ?_
    rw [show (4 : ℕ) = 2 ^ 2 by norm_num, ← pow_mul, ← pow_add, ← pow_add]
    exact Nat.pow_le_pow_right (by norm_num) (by omega)
  obtain ⟨k1, k2⟩ := isqrtFrom_spec M (p + 2) 0 (by simp) (by simpa using hMup)
  set k := isqrt (p + 2) M with hk
  change k * k ≤ M at k1
  change M < (k + 1) * (k + 1) at k2
  have sq : ∀ y : ℝ, 0 ≤ y → (y * 2 ^ e ≤ X ↔ y * y * 4 ^ e ≤ N) := by
    intro y hy
    rw [mul_self_le_mul_self_iff (by positivity) hX0, hXX, h4e]
    rw [show y * 2 ^ e * (y * 2 ^ e) = y * y * (2 ^ e * 2 ^ e) by ring]
  have klo : (k : ℝ) * 2 ^ e ≤ X := by
    rw [sq k (by positivity)]
    exact_mod_cast le_trans (Nat.mul_le_mul_right _ k1) hM4
  have khi : X < ((k : ℝ) + 1) * 2 ^ e := by
    rw [← not_le, sq _ (by positivity), not_le]
    exact_mod_cast lt_of_lt_of_le hM4' (Nat.mul_le_mul_right _ k2)
  have half : ∀ o : Ordering, compare (4 * N) ((2 * k + 1) * (2 * k + 1) * 4 ^ e) = o →
      (o = .lt ∧ X / 2 ^ e < k + 1 / 2) ∨ (o = .eq ∧ X / 2 ^ e = k + 1 / 2) ∨
        (o = .gt ∧ k + 1 / 2 < X / 2 ^ e) := by
    have hle : ((k : ℝ) + 1 / 2) * 2 ^ e ≤ X ↔ (2 * k + 1) * (2 * k + 1) * 4 ^ e ≤ 4 * N := by
      rw [sq _ (by positivity), ← Nat.cast_le (α := ℝ)]
      push_cast
      constructor <;> intro h <;> nlinarith
    have hge : X ≤ ((k : ℝ) + 1 / 2) * 2 ^ e ↔ 4 * N ≤ (2 * k + 1) * (2 * k + 1) * 4 ^ e := by
      rw [mul_self_le_mul_self_iff hX0 (by positivity), hXX, ← Nat.cast_le (α := ℝ)]
      rw [show ((k : ℝ) + 1 / 2) * 2 ^ e * (((k : ℝ) + 1 / 2) * 2 ^ e)
        = (k + 1 / 2) * (k + 1 / 2) * 4 ^ e by rw [h4e]; ring]
      push_cast
      constructor <;> intro h <;> nlinarith
    intro o ho
    rcases o with _ | _ | _
    · left
      refine ⟨rfl, ?_⟩
      rw [Nat.compare_eq_lt] at ho
      rw [div_lt_iff₀ hq, ← not_le, hle]; omega
    · right; left
      refine ⟨rfl, ?_⟩
      rw [Nat.compare_eq_eq] at ho
      rw [div_eq_iff hq.ne']
      exact le_antisymm (hge.mpr ho.le) (hle.mpr ho.ge)
    · right; right
      refine ⟨rfl, ?_⟩
      rw [Nat.compare_eq_gt] at ho
      rw [lt_div_iff₀ hq, ← not_le, hge]; omega
  obtain ⟨r1, r2⟩ := nearestEven_spec k (X / 2 ^ e) (by rw [le_div_iff₀ hq]; exact klo)
    (by rw [div_lt_iff₀ hq]; exact khi) _ (half _ rfl)
  have hscale : ∀ y : ℝ, |X - y * 2 ^ e| = |X / 2 ^ e - y| * 2 ^ e := by
    intro y
    rw [← abs_of_pos hq, ← abs_mul, abs_of_pos hq, sub_mul, div_mul_cancel₀ _ hq.ne']
  apply roundsTo_deliver hn hp false X hXpos _ e he1
  · rw [← not_le, mul_self_le_mul_self_iff (by positivity) hX0, hXX, not_le, ← pow_add, ← two_mul]
    exact_mod_cast hNup
  · right
    rw [mul_self_le_mul_self_iff (by positivity) hX0, hXX, ← pow_add, ← two_mul]
    exact_mod_cast hNlow
  · rw [hscale]; nlinarith
  · intro h
    rw [hscale] at h
    exact r2 (by nlinarith)

end

end Sys2Proof.Machine
end

