-- ==== Sys2Proof/Laws/Arithmetic.lean ====
section
/-! SUPPORT. The spec lemmas of the arithmetic: what `unpack` finds and `pack` makes of the four
classes of pattern, and the operations of Machine/Float.lean against the case tables of R163 to
R166, read off the patterns. -/

namespace Sys2Proof.Machine

section
variable {n p : Nat}

/-- A pattern is its three fields. -/
theorem toNat_eq_fields (hn : p + 3 ≤ n) (w : BitVec n) :
    w.toNat = (formatOf n p).fields w.msb (expField n p w) (fracField n p w) := by
  have h2 : 2 ^ n = 2 * 2 ^ (n - 1) := by rw [← pow_succ']; congr 1; omega
  have hlt := w.isLt
  have hs : w.toNat / 2 ^ (n - 1) = w.msb.toNat := by
    rw [BitVec.msb_eq_decide]
    by_cases h : 2 ^ (n - 1) ≤ w.toNat
    · simp only [h, decide_true, Bool.toNat_true]
      rw [Nat.div_eq_iff (by positivity)]; constructor <;> omega
    · simp only [h, decide_false, Bool.toNat_false]
      exact Nat.div_eq_of_lt (by omega)
  have hp : 2 ^ (n - 1) = 2 ^ p * 2 ^ (n - 1 - p) := by rw [← pow_add]; congr 1; omega
  have e1 : n - 1 - p + p = n - 1 := by omega
  simp only [FloatFormat.fields, formatOf, e1, expField, fracField]
  rw [← hs, hp, ← Nat.div_div_eq_div_mul]
  generalize 2 ^ p = A
  generalize 2 ^ (n - 1 - p) = B
  have h3 := Nat.div_add_mod (w.toNat / A) B
  have h4 := Nat.div_add_mod w.toNat A
  conv_lhs => rw [← h4, ← h3]
  ring

/-- Every pattern's datum, with what its fields say: exactly one of four classes. -/
theorem unpack_cases (hn : p + 3 ≤ n) (w : BitVec n) :
    ((formatOf n p).unpack w.toNat = .nan ∧ IsNaN n p w ∧ ¬ IsInf n p w ∧ ¬ IsZero n p w ∧
      ¬ IsFinite n p w) ∨
    ((formatOf n p).unpack w.toNat = .infinity w.msb ∧ ¬ IsNaN n p w ∧ IsInf n p w ∧
      ¬ IsZero n p w ∧ ¬ IsFinite n p w) ∨
    ((formatOf n p).unpack w.toNat = .zero w.msb ∧ ¬ IsNaN n p w ∧ ¬ IsInf n p w ∧
      IsZero n p w ∧ IsFinite n p w) ∨
    (∃ m e, (formatOf n p).unpack w.toNat = .finite w.msb m e ∧ ¬ IsNaN n p w ∧ ¬ IsInf n p w ∧
      ¬ IsZero n p w ∧ IsFinite n p w ∧ 0 < m) := by
  have htop : 0 < topExp n p := by
    simp only [topExp]
    have : 2 ^ 1 ≤ 2 ^ (n - 1 - p) := Nat.pow_le_pow_right (by norm_num) (by omega)
    omega
  rw [unpack_eq hn]
  by_cases h0 : expField n p w = 0
  · by_cases hf : fracField n p w = 0
    · exact .inr (.inr (.inl ⟨by simp [h0, hf], by simp [IsNaN, hf], by simp [IsInf, h0]; omega,
        ⟨h0, hf⟩, by simp only [IsFinite]; omega⟩))
    · refine .inr (.inr (.inr ⟨fracField n p w, 1, ?_, by simp [IsNaN, h0]; omega,
        by simp [IsInf, hf], by simp [IsZero, hf], by simp only [IsFinite]; omega, by omega⟩))
      simp [h0, hf]
  · by_cases ht : expField n p w = topExp n p
    · by_cases hf : fracField n p w = 0
      · exact .inr (.inl ⟨by simp [ht, hf, htop.ne'], by simp [IsNaN, hf], ⟨ht, hf⟩,
          by simp [IsZero, h0], by simp [IsFinite, ht]⟩)
      · exact .inl ⟨by simp [ht, hf, htop.ne'], ⟨ht, hf⟩, by simp [IsInf, hf], by simp [IsZero, h0],
          by simp [IsFinite, ht]⟩
    · refine .inr (.inr (.inr ⟨2 ^ p + fracField n p w, expField n p w, ?_, by simp [IsNaN, ht],
        by simp [IsInf, ht], by simp [IsZero, h0], ht, by positivity⟩))
      simp [h0, ht]

/-- Unpacking and packing a pattern that is no NaN gives it back (R160, R161). -/
theorem pack_unpack (hn : p + 3 ≤ n) (w : BitVec n) (hw : ¬ IsNaN n p w) (nf : Bool × Nat) :
    BitVec.ofNat n ((formatOf n p).pack nf ((formatOf n p).unpack w.toNat)) = w := by
  have hf : fracField n p w < 2 ^ p := Nat.mod_lt _ (by positivity)
  have key : (formatOf n p).pack nf ((formatOf n p).unpack w.toNat) = w.toNat := by
    rw [unpack_eq hn]
    conv_rhs => rw [toNat_eq_fields hn]
    by_cases h0 : expField n p w = 0
    · by_cases hz : fracField n p w = 0
      · simp [h0, hz, FloatFormat.pack]
      · simp only [h0, hz, if_true, if_false, FloatFormat.pack]
        rw [if_pos (show fracField n p w < 2 ^ (formatOf n p).fracBits from hf)]
    · by_cases ht : expField n p w = topExp n p
      · by_cases hz : fracField n p w = 0
        · rw [if_neg h0, if_pos ht, if_pos hz, FloatFormat.pack, maxExp_formatOf, ht, hz]
        · exact absurd ⟨ht, hz⟩ hw
      · simp only [h0, ht, if_false, FloatFormat.pack]
        have : (formatOf n p).fracBits = p := rfl
        rw [this, if_neg (by omega)]
        congr 1; omega
  rw [key, BitVec.ofNat_toNat, BitVec.setWidth_eq]

/-- The pattern of a NaN is a NaN (R168). -/
theorem pack_nan (hn : p + 3 ≤ n) (nf : Bool × Nat) (h : nf.2 ≠ 0) (h' : nf.2 < 2 ^ p) :
    IsNaN n p (BitVec.ofNat n ((formatOf n p).pack nf .nan)) := by
  obtain ⟨-, h1, h2, -⟩ := fields_spec (n := n) (p := p) hn nf.1 (topExp n p) nf.2 le_rfl h'
  simp only [FloatFormat.pack, maxExp_formatOf]
  exact ⟨h1, by rw [h2]; exact h⟩

/-- Every NaN is the pattern of its own sign and fraction (R168). -/
theorem nan_eq_pack (hn : p + 3 ≤ n) (w : BitVec n) (h : IsNaN n p w) :
    w = BitVec.ofNat n ((formatOf n p).pack (w.msb, fracField n p w) .nan) := by
  have : (formatOf n p).pack (w.msb, fracField n p w) .nan = w.toNat := by
    rw [FloatFormat.pack, maxExp_formatOf, ← h.1, ← toNat_eq_fields hn]
  rw [this, BitVec.ofNat_toNat, BitVec.setWidth_eq]

theorem pack_inf (nf : Bool × Nat) (hn : p + 3 ≤ n) (s : Bool) :
    BitVec.ofNat n ((formatOf n p).pack nf (.infinity s)) = infPattern n p s := by
  have e1 : n - 1 - p + p = n - 1 := by omega
  simp only [FloatFormat.pack, FloatFormat.fields, infPattern, formatOf, e1, add_zero]
  rfl

theorem pack_zero (nf : Bool × Nat) (hn : p + 3 ≤ n) (s : Bool) :
    BitVec.ofNat n ((formatOf n p).pack nf (.zero s)) = zeroPattern n s := by
  have e1 : n - 1 - p + p = n - 1 := by omega
  simp only [FloatFormat.pack, FloatFormat.fields, zeroPattern, formatOf, e1, add_zero, zero_mul]

/-- Flipping the sign bit flips the sign and leaves the other fields (R163, `neg`). -/
theorem flip_fields (hn : p + 3 ≤ n) (w : BitVec n) :
    expField n p (flipSign n w) = expField n p w ∧ fracField n p (flipSign n w) = fracField n p w ∧
      (flipSign n w).msb = !w.msb := by
  have hbit : ∀ i, (flipSign n w).getLsbD i = (w.getLsbD i ^^ (decide (i < n) && decide (n - 1 = i))) := by
    intro i
    rw [flipSign, BitVec.getLsbD_xor, BitVec.getLsbD_ofNat, Nat.testBit_two_pow]
  refine ⟨?_, ?_, ?_⟩
  · have e : ∀ v : BitVec n, expField n p v = (v.extractLsb' p (n - 1 - p)).toNat := fun v => by
      rw [BitVec.extractLsb'_toNat, Nat.shiftRight_eq_div_pow, expField]
    rw [e, e]
    congr 1
    apply BitVec.eq_of_getLsbD_eq
    intro i hi
    rw [BitVec.getLsbD_extractLsb', BitVec.getLsbD_extractLsb', hbit]
    have : decide (n - 1 = p + i) = false := decide_eq_false (by omega)
    simp [this]
  · have e : ∀ v : BitVec n, fracField n p v = (v.extractLsb' 0 p).toNat := fun v => by
      rw [BitVec.extractLsb'_toNat, Nat.shiftRight_zero, fracField]
    rw [e, e]
    congr 1
    apply BitVec.eq_of_getLsbD_eq
    intro i hi
    rw [BitVec.getLsbD_extractLsb', BitVec.getLsbD_extractLsb', hbit]
    have : n - 1 ≠ i := by omega
    simp [this]
  · rw [BitVec.msb_eq_getLsbD_last, BitVec.msb_eq_getLsbD_last, hbit]
    have : 0 < n := by omega
    simp [this]

/-- `neg` on patterns is `neg` on data (R163). -/
theorem unpack_flip (hn : p + 3 ≤ n) (w : BitVec n) :
    (formatOf n p).unpack (flipSign n w).toNat = ((formatOf n p).unpack w.toNat).negate := by
  obtain ⟨h1, h2, h3⟩ := flip_fields hn w
  rw [unpack_eq hn, unpack_eq hn, h1, h2, h3]
  repeat' split
  all_goals rfl

/-- The number of a finite pattern, over the reals. -/
theorem valueOf_real (hn : p + 3 ≤ n) (w : BitVec n) (hw : IsFinite n p w) :
    ((valueOf n p w : ℚ) : ℝ)
      = (((formatOf n p).unpack w.toNat).value : ℝ) * 2 ^ (-((formatOf n p).unitExp : ℤ)) := by
  rw [valueOf_eq hn w hw]; push_cast; rfl

theorem natAbs_sign (x : ℤ) :
    (if decide (x < 0) then (-1 : ℝ) else 1) * ((x.natAbs : ℝ) / ((1 : ℕ) : ℝ)) = (x : ℝ) := by
  have h : ((x.natAbs : ℕ) : ℝ) = |(x : ℝ)| := by
    rw [← Int.cast_natCast, Int.natCast_natAbs, Int.cast_abs]
  rw [h]
  by_cases hx : x < 0
  · have : (x : ℝ) < 0 := by exact_mod_cast hx
    simp [hx, abs_of_neg this]
  · have : (0 : ℝ) ≤ x := by exact_mod_cast not_lt.mp hx
    simp [hx, abs_of_nonneg this]

/-- SPEC LEMMA of `addFinite` (R163 rows 7, 8). -/
theorem addFinite_spec (hn : p + 3 ≤ n) (hp : 1 ≤ p) (nf : Bool × Nat) (a b : BitVec n)
    (ha : IsFinite n p a) (hb : IsFinite n p b) :
    let r := BitVec.ofNat n ((formatOf n p).pack nf
      ((formatOf n p).addFinite ((formatOf n p).unpack a.toNat) ((formatOf n p).unpack b.toNat)))
    if valueOf n p a + valueOf n p b = 0 then r = zeroPattern n false
    else RoundsTo n p ((valueOf n p a + valueOf n p b : ℚ) : ℝ) r := by
  have h2 : (2 : ℚ) ^ (-((formatOf n p).unitExp : ℤ)) ≠ 0 := by positivity
  simp only [FloatFormat.addFinite]
  have hv : valueOf n p a + valueOf n p b
      = ((((formatOf n p).unpack a.toNat).value + ((formatOf n p).unpack b.toNat).value : ℤ) : ℚ)
        * 2 ^ (-((formatOf n p).unitExp : ℤ)) := by
    rw [valueOf_eq hn a ha, valueOf_eq hn b hb]; push_cast; ring
  generalize ((formatOf n p).unpack a.toNat).value + ((formatOf n p).unpack b.toNat).value = x at hv
  by_cases hx : x = 0
  · rw [if_pos (by rw [hv, hx]; simp), if_pos hx, pack_zero nf hn]
  · rw [if_neg (by rw [hv]; simp [hx]), if_neg hx]
    have h := roundsTo_rnd hn hp (decide (x < 0)) x.natAbs 1 (by omega) one_pos nf
    rw [natAbs_sign] at h
    rw [hv]; push_cast; exact h

/-- SPEC LEMMA of `add` (R163). -/
theorem add_spec (hn : p + 3 ≤ n) (hp : 1 ≤ p) (nf : Bool × Nat) (h : nf.2 ≠ 0) (h' : nf.2 < 2 ^ p)
    (a b : BitVec n) :
    SumSpec n p a b (BitVec.ofNat n ((formatOf n p).pack nf
      ((formatOf n p).add ((formatOf n p).unpack a.toNat) ((formatOf n p).unpack b.toNat)))) := by
  have hN := pack_nan hn nf h h'
  have pa := pack_unpack hn a
  have pb := pack_unpack hn b
  have hadd := addFinite_spec hn hp nf a b
  simp only [SumSpec]
  rcases unpack_cases hn a with ⟨ua, na, ia, za, fa⟩ | ⟨ua, na, ia, za, fa⟩ | ⟨ua, na, ia, za, fa⟩ |
    ⟨ma, ea, ua, na, ia, za, fa, ha⟩
  · rw [ua, if_pos (.inl na)]; exact hN
  · rcases unpack_cases hn b with ⟨ub, nb, ib, zb, fb⟩ | ⟨ub, nb, ib, zb, fb⟩ | ⟨ub, nb, ib, zb, fb⟩ |
      ⟨mb, eb, ub, nb, ib, zb, fb, hb⟩
    · rw [ua, ub, if_pos (.inr nb)]; exact hN
    · rw [ua] at pa
      rw [ua, ub, if_neg (not_or.mpr ⟨na, nb⟩), FloatFormat.add]
      by_cases hs : a.msb = b.msb
      · rw [if_pos hs, if_neg (fun h => h.2.2 hs), if_pos ia]; exact pa na nf
      · rw [if_neg hs, if_pos ⟨ia, ib, hs⟩]; exact hN
    all_goals
      rw [ua] at pa
      rw [ua, ub, if_neg (not_or.mpr ⟨na, nb⟩), if_neg (fun h => ib h.2.1), if_pos ia]
      exact pa na nf
  all_goals
    rcases unpack_cases hn b with ⟨ub, nb, ib, zb, fb⟩ | ⟨ub, nb, ib, zb, fb⟩ | ⟨ub, nb, ib, zb, fb⟩ |
      ⟨mb, eb, ub, nb, ib, zb, fb, hb⟩
    · rw [ua, ub, if_pos (.inr nb)]; exact hN
    · rw [ub] at pb
      rw [ua, ub, if_neg (not_or.mpr ⟨na, nb⟩), if_neg (fun h => ia h.1), if_neg ia, if_pos ib]
      exact pb nb nf
    all_goals
      rw [ua, ub] at hadd
      rw [ua, ub, if_neg (not_or.mpr ⟨na, nb⟩), if_neg (fun h => ia h.1), if_neg ia, if_neg ib]
      first
        | rw [if_neg (fun h => za h.1), if_neg (fun h => za h.1)]; exact hadd fa fb
        | rw [if_neg (fun h => zb h.2.1), if_neg (fun h => zb h.2)]; exact hadd fa fb
        | rw [ua] at pa
          rw [FloatFormat.add]
          by_cases hs : a.msb = b.msb
          · rw [if_pos hs, if_pos ⟨za, zb, hs⟩]; exact pa na nf
          · rw [if_neg hs, if_neg (fun h => hs h.2.2), if_pos ⟨za, zb⟩]; exact pack_zero nf hn false

theorem sign_mul (s t : Bool) (x y : ℝ) (x' y' : ℕ) (hx : x = (if s then -1 else 1) * x')
    (hy : y = (if t then -1 else 1) * y') :
    x * y = (if s ^^ t then -1 else 1) * (x' * y') := by
  subst hx hy; cases s <;> cases t <;> simp

theorem finite_value (s : Bool) (m e : Nat) :
    ((Datum.value (.finite s m e) : ℤ) : ℝ) = (if s then -1 else 1) * ((m * 2 ^ e : ℕ) : ℝ) := by
  cases s <;> simp [Datum.value]

/-- SPEC LEMMA of `mul` (R164). -/
theorem mul_spec (hn : p + 3 ≤ n) (hp : 1 ≤ p) (nf : Bool × Nat) (h : nf.2 ≠ 0) (h' : nf.2 < 2 ^ p)
    (a b : BitVec n) :
    ProductSpec n p a b (BitVec.ofNat n ((formatOf n p).pack nf
      ((formatOf n p).mul ((formatOf n p).unpack a.toNat) ((formatOf n p).unpack b.toNat)))) := by
  have hN := pack_nan hn nf h h'
  have hI := fun s => pack_inf nf hn s
  have hZ := fun s => pack_zero nf hn s
  have va := valueOf_real hn a
  have vb := valueOf_real hn b
  simp only [ProductSpec]
  rcases unpack_cases hn a with ⟨ua, na, ia, za, fa⟩ | ⟨ua, na, ia, za, fa⟩ | ⟨ua, na, ia, za, fa⟩ |
    ⟨ma, ea, ua, na, ia, za, fa, ha⟩
  · rw [ua, if_pos (.inl na)]; exact hN
  all_goals
    rcases unpack_cases hn b with ⟨ub, nb, ib, zb, fb⟩ | ⟨ub, nb, ib, zb, fb⟩ | ⟨ub, nb, ib, zb, fb⟩ |
      ⟨mb, eb, ub, nb, ib, zb, fb, hb⟩
    · rw [ua, ub, if_pos (.inr nb)]; exact hN
    all_goals rw [ua, ub, if_neg (not_or.mpr ⟨na, nb⟩)]
    all_goals first
      | rw [if_pos (Or.inl (And.intro za ib))]; exact hN
      | rw [if_pos (Or.inr (And.intro ia zb))]; exact hN
      | have k1 : ¬ ((IsZero n p a ∧ IsInf n p b) ∨ (IsInf n p a ∧ IsZero n p b)) := by
          rintro (⟨h1, h2⟩ | ⟨h1, h2⟩) <;> contradiction
        rw [if_neg k1]
        first
          | rw [if_pos (Or.inl ia)]; exact hI _
          | rw [if_pos (Or.inr ib)]; exact hI _
          | rw [if_neg (not_or.mpr ⟨ia, ib⟩)]
            first
              | rw [if_pos (Or.inl za)]; exact hZ _
              | rw [if_pos (Or.inr zb)]; exact hZ _
              | rw [if_neg (not_or.mpr ⟨za, zb⟩)]
  have hr := roundsTo_rnd hn hp (a.msb ^^ b.msb) ((ma * 2 ^ ea) * (mb * 2 ^ eb))
    (2 ^ (formatOf n p).unitExp) (by positivity) (by positivity) nf
  have ea : ((valueOf n p a * valueOf n p b : ℚ) : ℝ) = (if a.msb ^^ b.msb then -1 else 1) *
      ((((ma * 2 ^ ea) * (mb * 2 ^ eb) : ℕ) : ℝ) / ((2 ^ (formatOf n p).unitExp : ℕ) : ℝ)) *
      2 ^ (-((formatOf n p).unitExp : ℤ)) := by
    rw [ua] at va; rw [ub] at vb
    push_cast
    rw [va fa, vb fb, finite_value, finite_value, zpow_neg, zpow_natCast]
    cases a.msb <;> cases b.msb <;> simp <;> field_simp
  rw [ea]; exact hr

/-- SPEC LEMMA of `div` (R165). -/
theorem div_spec (hn : p + 3 ≤ n) (hp : 1 ≤ p) (nf : Bool × Nat) (h : nf.2 ≠ 0) (h' : nf.2 < 2 ^ p)
    (a b : BitVec n) :
    QuotientSpec n p a b (BitVec.ofNat n ((formatOf n p).pack nf
      ((formatOf n p).div ((formatOf n p).unpack a.toNat) ((formatOf n p).unpack b.toNat)))) := by
  have hN := pack_nan hn nf h h'
  have hI := fun s => pack_inf nf hn s
  have hZ := fun s => pack_zero nf hn s
  have va := valueOf_real hn a
  have vb := valueOf_real hn b
  simp only [QuotientSpec]
  rcases unpack_cases hn a with ⟨ua, na, ia, za, fa⟩ | ⟨ua, na, ia, za, fa⟩ | ⟨ua, na, ia, za, fa⟩ |
    ⟨ma, ea, ua, na, ia, za, fa, ha⟩
  · rw [ua, if_pos (.inl na)]; exact hN
  all_goals
    rcases unpack_cases hn b with ⟨ub, nb, ib, zb, fb⟩ | ⟨ub, nb, ib, zb, fb⟩ | ⟨ub, nb, ib, zb, fb⟩ |
      ⟨mb, eb, ub, nb, ib, zb, fb, hb⟩
    · rw [ua, ub, if_pos (.inr nb)]; exact hN
    all_goals rw [ua, ub, if_neg (not_or.mpr ⟨na, nb⟩)]
    all_goals first
      | rw [if_pos (And.intro za zb)]; exact hN
      | have k1 : ¬ (IsZero n p a ∧ IsZero n p b) := by
          rintro ⟨h1, h2⟩; contradiction
        rw [if_neg k1]
        first
          | rw [if_pos (And.intro ia ib)]; exact hN
          | have k2 : ¬ (IsInf n p a ∧ IsInf n p b) := by
              rintro ⟨h1, h2⟩; contradiction
            rw [if_neg k2]
            first
              | rw [if_pos ia]; exact hI _
              | rw [if_neg ia, if_pos ib]; exact hZ _
              | rw [if_neg ia, if_neg ib, if_pos zb]; exact hI _
              | rw [if_neg ia, if_neg ib, if_neg zb, if_pos za]; exact hZ _
              | rw [if_neg ia, if_neg ib, if_neg zb, if_neg za]
  have hr := roundsTo_rnd hn hp (a.msb ^^ b.msb) ((ma * 2 ^ ea) * 2 ^ (formatOf n p).unitExp)
    (mb * 2 ^ eb) (by positivity) (by positivity) nf
  have ea : ((valueOf n p a / valueOf n p b : ℚ) : ℝ) = (if a.msb ^^ b.msb then -1 else 1) *
      ((((ma * 2 ^ ea) * 2 ^ (formatOf n p).unitExp : ℕ) : ℝ) / ((mb * 2 ^ eb : ℕ) : ℝ)) *
      2 ^ (-((formatOf n p).unitExp : ℤ)) := by
    rw [ua] at va; rw [ub] at vb
    push_cast
    rw [va fa, vb fb, finite_value, finite_value, zpow_neg, zpow_natCast]
    have : (mb : ℝ) ≠ 0 := by positivity
    cases a.msb <;> cases b.msb <;> simp <;> field_simp
  rw [ea]; exact hr

/-- SPEC LEMMA of `sqrt` (R166). -/
theorem sqrt_spec (hn : p + 3 ≤ n) (hp : 1 ≤ p)
    (hbig : 2 * (p + 1) ≤ (formatOf n p).unitExp) (nf : Bool × Nat) (h : nf.2 ≠ 0)
    (h' : nf.2 < 2 ^ p) (a : BitVec n) :
    RootSpec n p a (BitVec.ofNat n ((formatOf n p).pack nf
      ((formatOf n p).sqrt ((formatOf n p).unpack a.toNat)))) := by
  have hN := pack_nan hn nf h h'
  have pa := pack_unpack hn a
  have va := valueOf_real hn a
  simp only [RootSpec]
  rcases unpack_cases hn a with ⟨ua, na, ia, za, fa⟩ | ⟨ua, na, ia, za, fa⟩ | ⟨ua, na, ia, za, fa⟩ |
    ⟨ma, ea, ua, na, ia, za, fa, ha⟩
  · rw [ua, if_pos na]; exact hN
  · rw [ua] at pa
    rw [ua, if_neg na, if_neg za]
    cases hs : a.msb
    · rw [hs] at pa; rw [if_pos ⟨ia, rfl⟩]; exact pa na nf
    · rw [if_neg (by simp), if_pos rfl]; exact hN
  · rw [ua] at pa
    rw [ua, if_neg na, if_pos za]; exact pa na nf
  · rw [ua] at va
    rw [ua, if_neg na, if_neg za, if_neg (fun h => ia h.1)]
    cases hs : a.msb
    · rw [if_neg (by simp)]
      have hu : 0 < ma * 2 ^ ea := by positivity
      have hr := roundsTo_sqrtUnits hn hp (ma * 2 ^ ea) hu
        (le_trans (Nat.pow_le_pow_right (by norm_num) hbig) (Nat.le_mul_of_pos_left _ hu)) nf
      rw [va fa, finite_value, hs]
      rw [FloatFormat.sqrt]; simpa using hr
    · rw [if_pos rfl]; exact hN

end
end Sys2Proof.Machine
end

