-- ==== Sys2Proof/Laws/State.lean ====
section
/-! SUPPORT. One lemma per field per update of the state, true by rfl, so that no proof unfolds a
record update; and what each field is after reset. -/

namespace Sys2Proof.Machine

@[simp] theorem emit_r32 (e : Event) (s : State) :
    (emit e s).r32 = s.r32 := rfl

@[simp] theorem emit_r64 (e : Event) (s : State) :
    (emit e s).r64 = s.r64 := rfl

@[simp] theorem emit_slot (e : Event) (s : State) :
    (emit e s).slot = s.slot := rfl

@[simp] theorem emit_phase (e : Event) (s : State) :
    (emit e s).phase = s.phase := rfl

@[simp] theorem emit_busy (e : Event) (s : State) :
    (emit e s).busy = s.busy := rfl

@[simp] theorem emit_cur (e : Event) (s : State) :
    (emit e s).cur = s.cur := rfl

@[simp] theorem emit_inputs (e : Event) (s : State) :
    (emit e s).inputs = s.inputs := rfl

@[simp] theorem emit_events (e : Event) (s : State) :
    (emit e s).events = s.events ++ [e] := rfl

@[simp] theorem emit_draws (e : Event) (s : State) :
    (emit e s).draws = s.draws := rfl

@[simp] theorem accept_r32 (t : Transaction) (s : State) :
    (accept t s).r32 = s.r32 := rfl

@[simp] theorem accept_r64 (t : Transaction) (s : State) :
    (accept t s).r64 = s.r64 := rfl

@[simp] theorem accept_slot (t : Transaction) (s : State) :
    (accept t s).slot = s.slot := rfl

@[simp] theorem accept_phase (t : Transaction) (s : State) :
    (accept t s).phase = .busyProcessing := rfl

@[simp] theorem accept_busy (t : Transaction) (s : State) :
    (accept t s).busy = true := rfl

@[simp] theorem accept_cur (t : Transaction) (s : State) :
    (accept t s).cur = some t := rfl

@[simp] theorem accept_inputs (t : Transaction) (s : State) :
    (accept t s).inputs = s.inputs := rfl

@[simp] theorem accept_events (t : Transaction) (s : State) :
    (accept t s).events = s.events ++ [.setBusy true] := rfl

@[simp] theorem accept_draws (t : Transaction) (s : State) :
    (accept t s).draws = s.draws := rfl

@[simp] theorem complete_r32 (l : Label) (s : State) :
    (complete l s).r32 = s.r32 := rfl

@[simp] theorem complete_r64 (l : Label) (s : State) :
    (complete l s).r64 = s.r64 := rfl

@[simp] theorem complete_slot (l : Label) (s : State) :
    (complete l s).slot = s.slot := rfl

@[simp] theorem complete_phase (l : Label) (s : State) :
    (complete l s).phase = .idle := rfl

@[simp] theorem complete_busy (l : Label) (s : State) :
    (complete l s).busy = false := rfl

@[simp] theorem complete_cur (l : Label) (s : State) :
    (complete l s).cur = none := rfl

@[simp] theorem complete_inputs (l : Label) (s : State) :
    (complete l s).inputs = s.inputs := rfl

@[simp] theorem complete_events (l : Label) (s : State) :
    (complete l s).events = s.events ++ [.outcome l] ++ [.setBusy false] := rfl

@[simp] theorem complete_draws (l : Label) (s : State) :
    (complete l s).draws = s.draws := rfl

@[simp] theorem clearRegisters_r32 (s : State) :
    (clearRegisters s).r32 = Vector.replicate Config.nReg32 0 := rfl

@[simp] theorem clearRegisters_r64 (s : State) :
    (clearRegisters s).r64 = Vector.replicate Config.nReg64 0 := rfl

@[simp] theorem clearRegisters_slot (s : State) :
    (clearRegisters s).slot = s.slot := rfl

@[simp] theorem clearRegisters_phase (s : State) :
    (clearRegisters s).phase = s.phase := rfl

@[simp] theorem clearRegisters_busy (s : State) :
    (clearRegisters s).busy = s.busy := rfl

@[simp] theorem clearRegisters_cur (s : State) :
    (clearRegisters s).cur = s.cur := rfl

@[simp] theorem clearRegisters_inputs (s : State) :
    (clearRegisters s).inputs = s.inputs := rfl

@[simp] theorem clearRegisters_events (s : State) :
    (clearRegisters s).events = s.events := rfl

@[simp] theorem clearRegisters_draws (s : State) :
    (clearRegisters s).draws = s.draws := rfl

@[simp] theorem clearSlots_r32 (s : State) :
    (clearSlots s).r32 = s.r32 := rfl

@[simp] theorem clearSlots_r64 (s : State) :
    (clearSlots s).r64 = s.r64 := rfl

@[simp] theorem clearSlots_slot (s : State) :
    (clearSlots s).slot = [] := rfl

@[simp] theorem clearSlots_phase (s : State) :
    (clearSlots s).phase = s.phase := rfl

@[simp] theorem clearSlots_busy (s : State) :
    (clearSlots s).busy = s.busy := rfl

@[simp] theorem clearSlots_cur (s : State) :
    (clearSlots s).cur = s.cur := rfl

@[simp] theorem clearSlots_inputs (s : State) :
    (clearSlots s).inputs = s.inputs := rfl

@[simp] theorem clearSlots_events (s : State) :
    (clearSlots s).events = s.events := rfl

@[simp] theorem clearSlots_draws (s : State) :
    (clearSlots s).draws = s.draws := rfl

@[simp] theorem resetBlock_r32 (s : State) :
    (resetBlock s).r32 = Vector.replicate Config.nReg32 0 := rfl

@[simp] theorem resetBlock_r64 (s : State) :
    (resetBlock s).r64 = Vector.replicate Config.nReg64 0 := rfl

@[simp] theorem resetBlock_slot (s : State) :
    (resetBlock s).slot = [] := rfl

@[simp] theorem resetBlock_phase (s : State) :
    (resetBlock s).phase = .idle := rfl

@[simp] theorem resetBlock_busy (s : State) :
    (resetBlock s).busy = false := rfl

@[simp] theorem resetBlock_cur (s : State) :
    (resetBlock s).cur = none := rfl

@[simp] theorem resetBlock_inputs (s : State) :
    (resetBlock s).inputs = s.inputs := rfl

@[simp] theorem resetBlock_events (s : State) :
    (resetBlock s).events = s.events := rfl

@[simp] theorem resetBlock_draws (s : State) :
    (resetBlock s).draws = s.draws := rfl

@[simp] theorem reset_r32 : State.reset.r32 = Vector.replicate Config.nReg32 0 := rfl

@[simp] theorem reset_r64 : State.reset.r64 = Vector.replicate Config.nReg64 0 := rfl

@[simp] theorem reset_slot : State.reset.slot = [] := rfl

@[simp] theorem reset_phase : State.reset.phase = .idle := rfl

@[simp] theorem reset_busy : State.reset.busy = false := rfl

@[simp] theorem reset_cur : State.reset.cur = none := rfl

@[simp] theorem reset_inputs : State.reset.inputs = [] := rfl

@[simp] theorem reset_events : State.reset.events = [] := rfl

@[simp] theorem reset_draws : State.reset.draws = 0 := rfl

end Sys2Proof.Machine
end

