-- ==== Sys2Proof/Laws/Bytes.lean ====
section
/-! SUPPORT. The laws of the byte order (00_scope.md R7) and of the code tables (30_encoding.md R76,
R80). -/

namespace Sys2Proof

theorem byteOf_toNat (n i : Nat) (w : BitVec n) : (byteOf n i w).toNat = w.toNat / 2 ^ (8 * i) % 256 := by
  simp [byteOf, BitVec.extractLsb'_toNat, Nat.shiftRight_eq_div_pow]

theorem le32_toNat (b0 b1 b2 b3 : Byte) :
    (le32 b0 b1 b2 b3).toNat = b0.toNat + 256 * b1.toNat + 65536 * b2.toNat + 16777216 * b3.toNat := by
  have := b0.isLt; have := b1.isLt; have := b2.isLt; have := b3.isLt
  unfold le32
  simp only [BitVec.toNat_append, Nat.shiftLeft_eq]
  rw [← Nat.mul_comm (2 ^ 8), ← Nat.two_pow_add_eq_or_of_lt (by omega), ← Nat.mul_comm (2^8), ← Nat.two_pow_add_eq_or_of_lt (by omega),
    ← Nat.mul_comm (2^8), ← Nat.two_pow_add_eq_or_of_lt (by omega)]
  omega

theorem le64_toNat (b0 b1 b2 b3 b4 b5 b6 b7 : Byte) :
    (le64 b0 b1 b2 b3 b4 b5 b6 b7).toNat = (le32 b0 b1 b2 b3).toNat + 2 ^ 32 * (le32 b4 b5 b6 b7).toNat := by
  rw [le32_toNat, le32_toNat]
  have := b0.isLt; have := b1.isLt; have := b2.isLt; have := b3.isLt
  have := b4.isLt; have := b5.isLt; have := b6.isLt; have := b7.isLt
  unfold le64
  simp only [BitVec.toNat_append, Nat.shiftLeft_eq]
  simp only [← Nat.mul_comm (2 ^ 8)]
  repeat rw [← Nat.two_pow_add_eq_or_of_lt (by omega)]
  omega

/-- Splitting a word into bytes and assembling it again gives it back (R7). -/
theorem le32_bytes (w : Word32) :
    le32 (byteOf 32 0 w) (byteOf 32 1 w) (byteOf 32 2 w) (byteOf 32 3 w) = w := by
  apply BitVec.eq_of_toNat_eq
  rw [le32_toNat]
  simp only [byteOf_toNat]
  have := w.isLt
  omega

theorem le64_bytes (w : Word64) :
    le64 (byteOf 64 0 w) (byteOf 64 1 w) (byteOf 64 2 w) (byteOf 64 3 w)
      (byteOf 64 4 w) (byteOf 64 5 w) (byteOf 64 6 w) (byteOf 64 7 w) = w := by
  apply BitVec.eq_of_toNat_eq
  rw [le64_toNat, le32_toNat, le32_toNat]
  simp only [byteOf_toNat]
  have := w.isLt
  omega

theorem bytes_le32 (b0 b1 b2 b3 : Byte) : bytesLe32 (le32 b0 b1 b2 b3) = [b0, b1, b2, b3] := by
  have := b0.isLt; have := b1.isLt; have := b2.isLt; have := b3.isLt
  unfold bytesLe32
  congr 1
  · apply BitVec.eq_of_toNat_eq; rw [byteOf_toNat, le32_toNat]; omega
  congr 1
  · apply BitVec.eq_of_toNat_eq; rw [byteOf_toNat, le32_toNat]; omega
  congr 1
  · apply BitVec.eq_of_toNat_eq; rw [byteOf_toNat, le32_toNat]; omega
  congr 1
  · apply BitVec.eq_of_toNat_eq; rw [byteOf_toNat, le32_toNat]; omega

theorem bytes_le64 (b0 b1 b2 b3 b4 b5 b6 b7 : Byte) :
    bytesLe64 (le64 b0 b1 b2 b3 b4 b5 b6 b7) = [b0, b1, b2, b3, b4, b5, b6, b7] := by
  have := b0.isLt; have := b1.isLt; have := b2.isLt; have := b3.isLt
  have := b4.isLt; have := b5.isLt; have := b6.isLt; have := b7.isLt
  unfold bytesLe64
  simp only [List.cons.injEq, and_true]
  refine ⟨?_, ?_, ?_, ?_, ?_, ?_, ?_, ?_⟩ <;>
    (apply BitVec.eq_of_toNat_eq; rw [byteOf_toNat, le64_toNat, le32_toNat, le32_toNat]; omega)

theorem payload32_bytes (w : Word32) : payload32 (bytesLe32 w) = some w :=
  congrArg some (le32_bytes w)

theorem payload64_bytes (w : Word64) : payload64 (bytesLe64 w) = some w :=
  congrArg some (le64_bytes w)

theorem payload32_bytes64 (w : Word64) : payload32 (bytesLe64 w) = none := rfl

/-- Exactly the 4-byte payloads have a 32-bit operand, and they are its bytes. -/
theorem payload32_eq_some {p : List Byte} {w : Word32} (h : payload32 p = some w) :
    p = bytesLe32 w := by
  unfold payload32 at h
  split at h
  · simp only [Option.some.injEq] at h
    subst h; exact (bytes_le32 _ _ _ _).symm
  · simp at h

theorem payload64_eq_some {p : List Byte} {w : Word64} (h : payload64 p = some w) :
    p = bytesLe64 w := by
  unfold payload64 at h
  split at h
  · simp only [Option.some.injEq] at h
    subst h; exact (bytes_le64 _ _ _ _ _ _ _ _).symm
  · simp at h

theorem payload32_eq_none {p : List Byte} : payload32 p = none ↔ p.length ≠ 4 := by
  constructor
  · intro h hl
    match p, hl with
    | [b0, b1, b2, b3], _ => simp [payload32] at h
  · intro h
    cases hp : payload32 p with
    | none => rfl
    | some w => exact absurd (congrArg List.length (payload32_eq_some hp)) h

theorem payload64_eq_none {p : List Byte} : payload64 p = none ↔ p.length ≠ 8 := by
  constructor
  · intro h hl
    match p, hl with
    | [b0, b1, b2, b3, b4, b5, b6, b7], _ => simp [payload64] at h
  · intro h
    cases hp : payload64 p with
    | none => rfl
    | some w => exact absurd (congrArg List.length (payload64_eq_some hp)) h

@[simp] theorem decodeTxn_w32 (a : Byte) (w : Word32) :
    decodeTxn ⟨.write, a, bytesLe32 w⟩ = .w32 a w := by
  simp only [decodeTxn, payload32_bytes]

@[simp] theorem decodeTxn_w64 (a : Byte) (w : Word64) :
    decodeTxn ⟨.write, a, bytesLe64 w⟩ = .w64 a w := by
  simp only [decodeTxn, payload32_bytes64, payload64_bytes]

/-- A transaction of no handled shape is a violation (R71 row 4). -/
theorem decodeTxn_violation (d : Direction) (a : Byte) (p : List Byte)
    (h : handledShape d p.length = false) : decodeTxn ⟨d, a, p⟩ = .violation d a p := by
  cases d with
  | read => cases p with
    | nil => simp [handledShape] at h
    | cons b bs => rfl
  | write =>
    have h' : p.length ≠ 4 ∧ p.length ≠ 8 := by simpa [handledShape] using h
    simp only [decodeTxn, payload32_eq_none.mpr h'.1, payload64_eq_none.mpr h'.2]

/-- SPEC LEMMA of `decodeTxn`: what it yields is well-formed, and the transaction is its encoding. -/
theorem decodeTxn_spec (t : Transaction) :
    (decodeTxn t).wellFormed = true ∧ encode (decodeTxn t) = .txn t := by
  obtain ⟨d, a, p⟩ := t
  by_cases h : handledShape d p.length = false
  · rw [decodeTxn_violation d a p h]
    exact ⟨by simp [Instr.wellFormed, h], rfl⟩
  · cases d with
    | read => cases p with
      | nil => exact ⟨rfl, rfl⟩
      | cons b bs => simp [handledShape] at h
    | write =>
      cases h32 : payload32 p with
      | some w => rw [payload32_eq_some h32, decodeTxn_w32]; exact ⟨rfl, rfl⟩
      | none =>
        cases h64 : payload64 p with
        | some w => rw [payload64_eq_some h64, decodeTxn_w64]; exact ⟨rfl, rfl⟩
        | none => simp [handledShape, payload32_eq_none.mp h32, payload64_eq_none.mp h64] at h

/-- Every recognized identifier names the operation whose code it is (R80). -/
theorem opOfCode_opCode (o : Op) : opOfCode (opCode o) = some o := by cases o <;> decide

/-- An identifier names an operation exactly below 12 (R80, R156). -/
theorem opOfCode_eq_none_iff (c : Byte) : opOfCode c = none ↔ 12 ≤ c.toNat := by
  revert c; decide

theorem eq_opCode {c : Byte} {o : Op} (h : opOfCode c = some o) : c = opCode o := by
  have := List.find?_some h
  exact (by simpa using this : opCode o = c).symm

theorem kindOfCode_kindCode (k : Kind) : kindOfCode (kindCode k) = some k := by cases k <;> decide

theorem kindOfCode_eq_none_iff (c : Byte) : kindOfCode c = none ↔ 6 ≤ c.toNat := by
  revert c; decide

theorem eq_kindCode {c : Byte} {k : Kind} (h : kindOfCode c = some k) : c = kindCode k := by
  unfold kindOfCode at h
  repeat' split at h
  all_goals first | (simp only [Option.some.injEq] at h; subst h; assumption) | simp at h

end Sys2Proof
end

