-- ==== Sys2Proof/Laws/Memory.lean ====
section
/-! SUPPORT. The laws of the slot memory: read after write, and every write keeps the canonical
form; two canonical memories that read alike are equal. -/

namespace Sys2Proof.Machine

theorem Memory.read_put_self (i : Nat) (r : Record) (m : Memory)
    (h : Memory.read m i = clearedRecord) : Memory.read (Memory.put i r m) i = r := by
  unfold Memory.put
  split
  · rw [h]; exact Eq.symm ‹_›
  · simp [Memory.read]

theorem Memory.read_put_other (i j : Nat) (r : Record) (m : Memory) (h : j ≠ i) :
    Memory.read (Memory.put i r m) j = Memory.read m j := by
  unfold Memory.put
  split
  · rfl
  · simp [Memory.read, h]

/-- A slot below every listed one is unlisted. -/
theorem Memory.read_below (m : Memory) (i : Nat) (h : ∀ c ∈ m, i < c.1) :
    Memory.read m i = clearedRecord := by
  induction m with
  | nil => rfl
  | cons c m ih =>
    have hc := h c (by simp)
    obtain ⟨j, q⟩ := c
    have : i ≠ j := by simp at hc; omega
    simp only [Memory.read, this, if_false]
    exact ih fun c hc => h c (by simp [hc])

/-- Reading what was just written gives it back. -/
theorem Memory.read_write_self (m : Memory) (hm : (m.map Prod.fst).Pairwise (· < ·)) (i : Nat)
    (r : Record) : Memory.read (Memory.write m i r) i = r := by
  induction m with
  | nil => exact Memory.read_put_self i r [] rfl
  | cons c m ih =>
    obtain ⟨j, q⟩ := c
    rw [List.map_cons, List.pairwise_cons] at hm
    have below : ∀ c ∈ m, j < c.1 := fun c hc => hm.1 _ (List.mem_map_of_mem hc)
    unfold Memory.write
    split
    · next hij =>
      refine Memory.read_put_self i r _ (Memory.read_below _ _ ?_)
      simp only [List.mem_cons, forall_eq_or_imp]
      exact ⟨hij, fun c hc => hij.trans (below c hc)⟩
    · split
      · next hij => subst hij; exact Memory.read_put_self i r m (Memory.read_below m i below)
      · next hij => simp only [Memory.read, hij, if_false]; exact ih hm.2

/-- A write leaves every other slot alone. -/
theorem Memory.read_write_other (m : Memory) (i j : Nat) (r : Record) (h : j ≠ i) :
    Memory.read (Memory.write m i r) j = Memory.read m j := by
  induction m with
  | nil => exact Memory.read_put_other i j r [] h
  | cons c m ih =>
    obtain ⟨k, q⟩ := c
    unfold Memory.write
    split
    · exact Memory.read_put_other i j r _ h
    · split
      · next hik => subst hik; rw [Memory.read_put_other i j r m h]; simp [Memory.read, h]
      · simp only [Memory.read, ih]

theorem Memory.keys_write (m : Memory) (i : Nat) (r : Record) :
    ∀ k ∈ (Memory.write m i r).map Prod.fst, k = i ∨ k ∈ m.map Prod.fst := by
  induction m with
  | nil => intro k; unfold Memory.write Memory.put; split <;> simp
  | cons c m ih =>
    obtain ⟨j, q⟩ := c
    intro k
    unfold Memory.write Memory.put
    split
    · split <;> simp
      tauto
    · split
      · split <;> simp <;> tauto
      · simp only [List.map_cons, List.mem_cons]
        rintro (h | h)
        · exact .inr (.inl h)
        · exact (ih k h).imp id .inr

/-- Every write of an existing slot keeps the canonical form. -/
theorem Memory.wf_write (m : Memory) (hm : Memory.wf m) (i : Nat) (hi : i < Config.nSlot)
    (r : Record) : Memory.wf (Memory.write m i r) := by
  obtain ⟨hs, hv⟩ := hm
  constructor
  · clear hv
    induction m with
    | nil => unfold Memory.write Memory.put; split <;> simp
    | cons c m ih =>
      obtain ⟨j, q⟩ := c
      rw [List.map_cons, List.pairwise_cons] at hs
      unfold Memory.write Memory.put
      split
      · next hij =>
        split
        · simpa using hs
        · simp only [List.map_cons, List.pairwise_cons, List.mem_cons, forall_eq_or_imp]
          exact ⟨⟨hij, fun k hk => hij.trans (hs.1 k hk)⟩, hs⟩
      · next hlt =>
        split
        · next hij =>
          subst hij
          split
          · exact hs.2
          · simpa using hs
        · next hne =>
          simp only [List.map_cons, List.pairwise_cons]
          refine ⟨fun k hk => ?_, ih hs.2⟩
          rcases Memory.keys_write m i r k hk with h | h
          · omega
          · exact hs.1 k h
  · clear hs
    induction m with
    | nil =>
      unfold Memory.write Memory.put
      split
      · simp
      · next h => simpa using ⟨hi, h⟩
    | cons c m ih =>
      have hv' : ∀ c ∈ m, c.1 < Config.nSlot ∧ c.2 ≠ clearedRecord :=
        fun c hc => hv c (by simp [hc])
      obtain ⟨j, q⟩ := c
      unfold Memory.write Memory.put
      split
      · split
        · exact hv
        · next h =>
          rw [List.forall_mem_cons]
          exact ⟨⟨hi, h⟩, hv⟩
      · split
        · split
          · exact hv'
          · next h => rw [List.forall_mem_cons]; exact ⟨⟨hi, h⟩, hv'⟩
        · rw [List.forall_mem_cons]
          exact ⟨hv _ (by simp), ih hv'⟩

/-- Two canonical memories that read alike are the same data. -/
theorem Memory.eq_of_read (m : Memory) : ∀ m' : Memory, Memory.wf m → Memory.wf m' →
    (∀ i, Memory.read m i = Memory.read m' i) → m = m' := by
  induction m with
  | nil =>
    intro m' _ h' he
    cases m' with
    | nil => rfl
    | cons c m' =>
      have := he c.1
      simp only [Memory.read, if_true] at this
      exact absurd this.symm (h'.2 c (by simp)).2
  | cons c m ih =>
    intro m' h h' he
    have below : ∀ (d : Nat × Record) (l : Memory), Memory.wf (d :: l) → ∀ x ∈ l, d.1 < x.1 := by
      intro d l hl x hx
      have := hl.1
      rw [List.map_cons, List.pairwise_cons] at this
      exact this.1 _ (List.mem_map_of_mem hx)
    have tail : ∀ (d : Nat × Record) (l : Memory), Memory.wf (d :: l) → Memory.wf l := by
      intro d l hl
      have := hl.1
      rw [List.map_cons, List.pairwise_cons] at this
      exact ⟨this.2, fun x hx => hl.2 x (by simp [hx])⟩
    cases m' with
    | nil =>
      have := he c.1
      simp only [Memory.read, if_true] at this
      exact absurd this (h.2 c (by simp)).2
    | cons c' m' =>
      have h1 := he c.1
      have h2 := he c'.1
      simp only [Memory.read, if_true] at h1 h2
      have hk : c.1 = c'.1 := by
        rcases Nat.lt_trichotomy c.1 c'.1 with hlt | heq | hgt
        · rw [if_neg (by omega), Memory.read_below m' c.1 (fun x hx => hlt.trans (below c' m' h' x hx))] at h1
          exact absurd h1 (h.2 c (by simp)).2
        · exact heq
        · rw [if_neg (by omega), Memory.read_below m c'.1 (fun x hx => hgt.trans (below c m h x hx))] at h2
          exact absurd h2.symm (h'.2 c' (by simp)).2
      rw [if_pos hk] at h1
      have hc : c = c' := Prod.ext hk h1
      subst hc
      congr 1
      refine ih m' (tail _ _ h) (tail _ _ h') fun i => ?_
      by_cases hi : i = c.1
      · subst hi
        rw [Memory.read_below m _ (below c m h), Memory.read_below m' _ (below c m' h')]
      · have := he i
        simpa only [Memory.read, hi, if_false] using this

@[simp] theorem Memory.wf_nil : Memory.wf [] := by simp [Memory.wf]

end Sys2Proof.Machine
end

