-- ==== Sys2Proof/Laws/Ops.lean ====
section
/-! SUPPORT. One spec lemma per shared operation, saying everything it can do. -/

namespace Sys2Proof.Machine

/- ## Reads -/

theorem read32_eq (s : State) (i : Nat) : read32 s i = s.r32[i]? := by
  unfold read32; split <;> simp [*]

theorem read64_eq (s : State) (i : Nat) : read64 s i = s.r64[i]? := by
  unfold read64; split <;> simp [*]

theorem read32_of_lt (s : State) (i : Nat) (h : i < 256) : read32 s i = some s.r32[i] := by
  simp [read32, h]

theorem read64_of_lt (s : State) (i : Nat) (h : i < 256) : read64 s i = some s.r64[i] := by
  simp [read64, h]

theorem read32_of_ge (s : State) (i : Nat) (h : 256 ≤ i) : read32 s i = none := by
  simp [read32]; omega

theorem read64_of_ge (s : State) (i : Nat) (h : 256 ≤ i) : read64 s i = none := by
  simp [read64]; omega

/-- A read looks at its own space only. -/
theorem read32_congr {s t : State} (h : t.r32 = s.r32) (i : Nat) : read32 t i = read32 s i := by
  simp only [read32_eq, h]

theorem read64_congr {s t : State} (h : t.r64 = s.r64) (i : Nat) : read64 t i = read64 s i := by
  simp only [read64_eq, h]

theorem readSlot_congr {s t : State} (h : t.slot = s.slot) (i : Nat) :
    readSlot t i = readSlot s i := by
  simp only [readSlot, h]

/- ## Writes: each either changes one entry or is rejected -/

theorem write32_of_lt (s : State) (i : Nat) (v : Word32) (h : i < 256) :
    write32 i v s = some { s with r32 := s.r32.set i v h } := by
  simp [write32, h]

theorem write32_of_ge (s : State) (i : Nat) (v : Word32) (h : 256 ≤ i) : write32 i v s = none := by
  simp [write32]; omega

theorem write64_of_lt (s : State) (i : Nat) (v : Word64) (h : i < 256) :
    write64 i v s = some { s with r64 := s.r64.set i v h } := by
  simp [write64, h]

theorem write64_of_ge (s : State) (i : Nat) (v : Word64) (h : 256 ≤ i) : write64 i v s = none := by
  simp [write64]; omega

theorem writeSlot_of_lt (s : State) (i : Nat) (r : Record) (h : i < 1024) :
    writeSlot i r s = some { s with slot := Memory.write s.slot i r } := by
  simp [writeSlot, h]

theorem writeSlot_of_ge (s : State) (i : Nat) (r : Record) (h : 1024 ≤ i) :
    writeSlot i r s = none := by
  simp [writeSlot]; omega

/-- SPEC LEMMA of `write32` (R102). -/
theorem write32_spec {s t : State} {i : Nat} {v : Word32} (h : write32 i v s = some t) :
    i < 256 ∧ read32 t i = some v ∧ OnlyR32 i s t ∧ SameControl s t ∧ t.slot = s.slot ∧
      t.events = s.events ∧ t.draws = s.draws := by
  by_cases hi : i < 256
  · rw [write32_of_lt s i v hi, Option.some.injEq] at h
    subst h
    refine ⟨hi, ?_, ⟨fun j hj => ?_, fun j => rfl, fun j => rfl⟩, ⟨rfl, rfl, rfl, rfl⟩, rfl, rfl, rfl⟩
    · simp [read32_eq, hi]
    · simp only [read32_eq]
      exact Vector.getElem?_set_ne hi (Ne.symm hj)
  · rw [write32_of_ge s i v (by omega)] at h; simp at h

/-- SPEC LEMMA of `write64` (R103). -/
theorem write64_spec {s t : State} {i : Nat} {v : Word64} (h : write64 i v s = some t) :
    i < 256 ∧ read64 t i = some v ∧ OnlyR64 i s t ∧ SameControl s t ∧ t.slot = s.slot ∧
      t.events = s.events ∧ t.draws = s.draws := by
  by_cases hi : i < 256
  · rw [write64_of_lt s i v hi, Option.some.injEq] at h
    subst h
    refine ⟨hi, ?_, ⟨fun j hj => ?_, fun j => rfl, fun j => rfl⟩, ⟨rfl, rfl, rfl, rfl⟩, rfl, rfl, rfl⟩
    · simp [read64_eq, hi]
    · simp only [read64_eq]
      exact Vector.getElem?_set_ne hi (Ne.symm hj)
  · rw [write64_of_ge s i v (by omega)] at h; simp at h

/- ## Admission and the transaction state machine -/

theorem atPort_idle {s : State} (h : s.phase = .idle)
    (k : State → Host.Outcome State Fault Refusal) : atPort k s = k s := by
  simp [atPort, h]

theorem atPort_busy {s : State} (h : s.phase = .busyProcessing)
    (k : State → Host.Outcome State Fault Refusal) : atPort k s = .refused .portWhileBusy := by
  simp [atPort, h]

/-- SPEC LEMMA of `atPort`: a next state comes from Idle, and is the body's. -/
theorem atPort_next {s t : State} {k : State → Host.Outcome State Fault Refusal}
    (h : atPort k s = .next t) : s.phase = .idle ∧ k s = .next t := by
  cases hp : s.phase with
  | idle => rw [atPort_idle hp] at h; exact ⟨rfl, h⟩
  | busyProcessing => rw [atPort_busy hp] at h; cases h

/-- The state a transaction's access starts from: accepted. -/
def entered (t : Transaction) (s : State) : State :=
  match s.phase with
  | .idle => accept t s
  | .busyProcessing => s

/-- SPEC LEMMA of `transact`, an admitted transaction: it completes. -/
theorem transact_admitted {t : Transaction} {s : State} (h : Admitted t s)
    (k : State → State × Label) :
    transact t k s = .next (complete (k (entered t s)).2 (k (entered t s)).1) := by
  rcases h with h | ⟨h, hc⟩
  · simp [transact, entered, h]
  · simp [transact, entered, h, hc]

/-- SPEC LEMMA of `transact`, any other: refused by name. -/
theorem transact_overlap {t : Transaction} {s : State} (h : ¬ Admitted t s)
    (k : State → State × Label) : transact t k s = .refused .overlappingTransaction := by
  have hp : s.phase = .busyProcessing := by
    cases hp : s.phase with
    | idle => exact absurd (.inl hp) h
    | busyProcessing => rfl
  have hc : s.cur ≠ some t := fun hc => h (.inr ⟨hp, hc⟩)
  simp [transact, hp, hc]

/-- What accepting leaves alone, and what it puts out. -/
theorem entered_spec (t : Transaction) (s : State) :
    (entered t s).r32 = s.r32 ∧ (entered t s).r64 = s.r64 ∧ (entered t s).slot = s.slot ∧
      (entered t s).inputs = s.inputs ∧ (entered t s).draws = s.draws ∧
      (entered t s).events = s.events ++ openingPulse s := by
  unfold entered openingPulse
  cases s.phase <;> simp

end Sys2Proof.Machine
end

