-- ==== Sys2Proof/Laws/Exec.lean ====
section
/-! SUPPORT. What an instruction can do, said once over all of them: it runs either as a whole bus
transaction or as a local-port operation. -/

namespace Sys2Proof.Machine

/-- How a transaction may end: what is sent, and the label (R192). -/
def TxnEnding (tx : Transaction) (es : List Event) (l : Label) : Prop :=
  (es = [] ∧ l = .writeDone) ∨ (∃ d, es = [.respond tx d] ∧ l = .responded d) ∨
    (es = [] ∧ ∃ r, l = .dropped r)

/-- What a whole transaction does to everything but the registers. -/
def RanTxn (s t : State) : Prop :=
  ∃ tx es l, Admitted tx s ∧ TxnEnding tx es l ∧ TxnEnded es l s t ∧ t.slot = s.slot

/-- What a local-port operation does to everything but the registers and the draw index. -/
def RanPort (s t : State) : Prop :=
  s.phase = .idle ∧ t.phase = .idle ∧ t.inputs = s.inputs ∧
    ((t.busy = s.busy ∧ t.cur = s.cur) ∨ (t.busy = false ∧ t.cur = none)) ∧
    (∃ r, t.events = s.events ++ [.result r]) ∧ (Memory.wf s.slot → Memory.wf t.slot)

theorem ranTxn_of_transact {tx : Transaction} {s t : State} {k : State → State × Label}
    (h : transact tx k s = .next t)
    (hk : ∀ u : State, ∃ es, (k u).1.events = u.events ++ es ∧ TxnEnding tx es (k u).2 ∧
      (k u).1.slot = u.slot ∧ (k u).1.inputs = u.inputs ∧ (k u).1.draws = u.draws) :
    RanTxn s t := by
  by_cases ha : Admitted tx s
  · rw [transact_admitted ha, Host.Outcome.next.injEq] at h
    obtain ⟨es, h1, h2, h3, h4, h5⟩ := hk (entered tx s)
    obtain ⟨-, -, e3, e4, e5, e6⟩ := entered_spec tx s
    subst h
    refine ⟨tx, es, _, ha, h2, ⟨rfl, rfl, rfl, ?_, ?_, ?_⟩, ?_⟩
    · simp [h4, e4]
    · simp [h5, e5]
    · simp [h1, e6]
    · simp [h3, e3]
  · rw [transact_overlap ha] at h; cases h

theorem writeOutcome_spec {tx : Transaction} (w : State → Option State)
    (hw : ∀ u v, w u = some v → v.events = u.events ∧ v.slot = u.slot ∧ v.inputs = u.inputs ∧
      v.draws = u.draws) (u : State) :
    ∃ es, (writeOutcome (w u) u).1.events = u.events ++ es ∧ TxnEnding tx es (writeOutcome (w u) u).2 ∧
      (writeOutcome (w u) u).1.slot = u.slot ∧ (writeOutcome (w u) u).1.inputs = u.inputs ∧
      (writeOutcome (w u) u).1.draws = u.draws := by
  refine ⟨[], ?_⟩
  cases h : w u with
  | none => simp [writeOutcome, TxnEnding]
  | some v =>
    obtain ⟨h1, h2, h3, h4⟩ := hw u v h
    simp [writeOutcome, TxnEnding, *]

/-- A local-port body that only answers. -/
theorem ranPort_answer {s t u : State} {r : PortResult} (hs : s.phase = .idle)
    (h : answer r u = .next t) (hc : SameControl s u) (he : u.events = s.events)
    (hm : Memory.wf s.slot → Memory.wf u.slot) : RanPort s t := by
  simp only [answer, Host.Outcome.next.injEq] at h
  subst h
  obtain ⟨h1, h2, h3, h4⟩ := hc
  exact ⟨hs, by simp [h1, hs], by simp [h4], .inl ⟨by simp [h2], by simp [h3]⟩, ⟨r, by simp [he]⟩, hm⟩

theorem ranPort_answerWrite {s t : State} {w : Option State} (hs : s.phase = .idle)
    (h : answerWrite w s = .next t)
    (hw : ∀ v, w = some v → SameControl s v ∧ v.events = s.events ∧ (Memory.wf s.slot → Memory.wf v.slot)) :
    RanPort s t := by
  cases w with
  | none => exact ranPort_answer hs h ⟨rfl, rfl, rfl, rfl⟩ rfl id
  | some v => obtain ⟨h1, h2, h3⟩ := hw v rfl; exact ranPort_answer hs h h1 h2 h3

theorem ranPort_writeBack {s t : State} {w : Option State} (hs : s.phase = .idle)
    (h : writeBack w s = .next t)
    (hw : ∀ v, w = some v → SameControl s v ∧ v.events = s.events ∧ v.slot = s.slot) :
    RanPort s t := by
  cases w with
  | none => exact ranPort_answer hs h ⟨rfl, rfl, rfl, rfl⟩ rfl id
  | some v =>
    obtain ⟨h1, h2, h3⟩ := hw v rfl
    exact ranPort_answer (u := { v with draws := s.draws + 1 }) hs h h1 h2
      (fun hm => by simpa [h3] using hm)

theorem write32_control {s v : State} {i : Nat} {x : Word32} (h : write32 i x s = some v) :
    SameControl s v ∧ v.events = s.events ∧ v.slot = s.slot := by
  obtain ⟨-, -, -, h1, h2, h3, -⟩ := write32_spec h; exact ⟨h1, h3, h2⟩

theorem write64_control {s v : State} {i : Nat} {x : Word64} (h : write64 i x s = some v) :
    SameControl s v ∧ v.events = s.events ∧ v.slot = s.slot := by
  obtain ⟨-, -, -, h1, h2, h3, -⟩ := write64_spec h; exact ⟨h1, h3, h2⟩

theorem ranPort_bin32 {F} {d a b : Nat} {s t : State} (hs : s.phase = .idle)
    (h : bin32 F d a b s = .next t) : RanPort s t := by
  unfold bin32 at h
  split at h
  · exact ranPort_writeBack hs h fun v hv => write32_control hv
  · exact ranPort_answer hs h ⟨rfl, rfl, rfl, rfl⟩ rfl id

theorem ranPort_bin64 {F} {d a b : Nat} {s t : State} (hs : s.phase = .idle)
    (h : bin64 F d a b s = .next t) : RanPort s t := by
  unfold bin64 at h
  split at h
  · exact ranPort_writeBack hs h fun v hv => write64_control hv
  · exact ranPort_answer hs h ⟨rfl, rfl, rfl, rfl⟩ rfl id

theorem ranPort_un64 {G} {d a : Nat} {s t : State} (hs : s.phase = .idle)
    (h : un64 G d a s = .next t) : RanPort s t := by
  unfold un64 at h
  split at h
  · exact ranPort_writeBack hs h fun v hv => write64_control hv
  · exact ranPort_answer hs h ⟨rfl, rfl, rfl, rfl⟩ rfl id

theorem ranPort_dispatch {r : Request} {s t : State} (hs : s.phase = .idle)
    (h : dispatch r s = .next t) : RanPort s t := by
  unfold dispatch at h
  cases ho : opOfCode r.op with
  | none =>
    simp only [ho] at h
    exact ranPort_answer hs h ⟨rfl, rfl, rfl, rfl⟩ rfl id
  | some o =>
    cases o <;> simp only [ho] at h <;>
      first | exact ranPort_bin32 hs h | exact ranPort_bin64 hs h | exact ranPort_un64 hs h

/-- Everything an instruction can do to the control state, the inputs, the events and the slots'
canonical form: it runs as a whole transaction or as a local-port operation. -/
theorem exec_next {i : Instr} {s t : State} (h : exec i s = .next t) : RanTxn s t ∨ RanPort s t := by
  cases i with
  | w32 a v =>
    unfold exec execW32 at h
    exact .inl (ranTxn_of_transact h fun u => writeOutcome_spec (fun u => write32 a.toNat v u)
      (fun u v hv => by obtain ⟨-, -, -, ⟨-, -, -, h1⟩, h2, h3, h4⟩ := write32_spec hv; exact ⟨h3, h2, h1, h4⟩) u)
  | w64 a v =>
    unfold exec execW64 at h
    exact .inl (ranTxn_of_transact h fun u => writeOutcome_spec (fun u => write64 a.toNat v u)
      (fun u v hv => by obtain ⟨-, -, -, ⟨-, -, -, h1⟩, h2, h3, h4⟩ := write64_spec hv; exact ⟨h3, h2, h1, h4⟩) u)
  | rd32 a =>
    unfold exec execRd32 at h
    refine .inl (ranTxn_of_transact h fun u => ?_)
    cases hr : read32 u a.toNat with
    | none => exact ⟨[], by simp [TxnEnding]⟩
    | some w => exact ⟨[.respond ⟨.read, a, []⟩ (bytesLe32 w)], by simp [TxnEnding]⟩
  | violation d a p =>
    unfold exec execViolation at h
    exact .inl (ranTxn_of_transact h fun u => ⟨[], by simp [TxnEnding]⟩)
  | add32 _ _ _ | sub32 _ _ _ | mul32 _ _ _ | div32 _ _ _ =>
    exact .inr (let ⟨h1, h2⟩ := atPort_next h; ranPort_bin32 h1 h2)
  | add64 _ _ _ | sub64 _ _ _ | mul64 _ _ _ | div64 _ _ _ =>
    exact .inr (let ⟨h1, h2⟩ := atPort_next h; ranPort_bin64 h1 h2)
  | sine64 _ _ _ | cosine64 _ _ _ | tangent64 _ _ _ | squareRoot64 _ _ _ =>
    exact .inr (let ⟨h1, h2⟩ := atPort_next h; ranPort_un64 h1 h2)
  | execute _ _ _ _ => exact .inr (let ⟨h1, h2⟩ := atPort_next h; ranPort_dispatch h1 h2)
  | write32 n v =>
    exact .inr (let ⟨h1, h2⟩ := atPort_next h; ranPort_answerWrite h1 h2 fun v hv =>
      let ⟨a, b, c⟩ := write32_control hv; ⟨a, b, fun hm => c ▸ hm⟩)
  | write64 n v =>
    exact .inr (let ⟨h1, h2⟩ := atPort_next h; ranPort_answerWrite h1 h2 fun v hv =>
      let ⟨a, b, c⟩ := write64_control hv; ⟨a, b, fun hm => c ▸ hm⟩)
  | osWrite n r =>
    obtain ⟨h1, h2⟩ := atPort_next h
    refine .inr (ranPort_answerWrite h1 h2 fun v hv => ?_)
    by_cases hn : n < 1024
    · rw [writeSlot_of_lt s n r hn, Option.some.injEq] at hv
      subst hv
      exact ⟨⟨rfl, rfl, rfl, rfl⟩, rfl, fun hm => Memory.wf_write _ hm n hn r⟩
    · rw [writeSlot_of_ge s n r (by omega)] at hv; cases hv
  | osClear =>
    unfold exec execOsClear at h
    exact .inr (let ⟨h1, h2⟩ := atPort_next h
      ranPort_answer h1 h2 ⟨rfl, rfl, rfl, rfl⟩ rfl fun _ => Memory.wf_nil)
  | rfClear =>
    unfold exec execRfClear at h
    exact .inr (let ⟨h1, h2⟩ := atPort_next h
      ranPort_answer h1 h2 ⟨rfl, rfl, rfl, rfl⟩ rfl fun h => h)
  | reset =>
    unfold exec execReset at h
    obtain ⟨h1, h2⟩ := atPort_next h
    simp only [answer, Host.Outcome.next.injEq] at h2
    subst h2
    exact .inr ⟨h1, rfl, rfl, .inr ⟨rfl, rfl⟩, ⟨.done, rfl⟩, fun _ => Memory.wf_nil⟩
  | nop _ _ _ | load32 _ _ _ | load64 _ _ _ | store32 _ _ _ | store64 _ _ _ | executeOp _ _ _
  | nopEquiv _ _ _ _ | unsupported _ _ _ _ | read32 _ | read64 _ | osRead _ =>
    exact .inr (let ⟨h1, h2⟩ := atPort_next h
      ranPort_answer h1 h2 ⟨rfl, rfl, rfl, rfl⟩ rfl fun h => h)

/-- Everything a step can do: an idle poll, an acceptance, an input's instruction, or the latched
transaction's (R191, R193). -/
theorem step_cases {s t : State} (h : step s = .next t) :
    (s.phase = .idle ∧ s.inputs = [] ∧ t = s) ∨
    (∃ x rest, s.phase = .idle ∧ s.inputs = .txn x :: rest ∧ t = accept x { s with inputs := rest }) ∨
    (∃ inp rest i, s.phase = .idle ∧ s.inputs = inp :: rest ∧ (∀ x, inp ≠ .txn x) ∧
      decode inp = .instr i ∧ exec i { s with inputs := rest } = .next t) ∨
    (∃ x, s.phase = .busyProcessing ∧ s.cur = some x ∧ exec (decodeTxn x) s = .next t) := by
  unfold step fetch at h
  cases hp : s.phase with
  | busyProcessing =>
    cases hc : s.cur with
    | none => simp [hp, hc] at h
    | some x => simp [hp, hc] at h; exact .inr (.inr (.inr ⟨x, rfl, rfl, h⟩))
  | idle =>
    cases hi : s.inputs with
    | nil => simp [hp, hi] at h; exact .inl ⟨rfl, rfl, h.symm⟩
    | cons inp rest =>
      by_cases hx : ∃ x, inp = .txn x
      · obtain ⟨x, rfl⟩ := hx
        simp [hp, hi] at h
        exact .inr (.inl ⟨x, rest, rfl, rfl, h.symm⟩)
      · have hx' : ∀ x, inp ≠ .txn x := fun x e => hx ⟨x, e⟩
        cases hd : decode inp with
        | instr i =>
          refine .inr (.inr (.inl ⟨inp, rest, i, rfl, rfl, hx', hd, ?_⟩))
          cases inp <;> simp_all
        | rejected r => exfalso; cases inp <;> simp_all

/- ## The two forms of an instruction -/

/-- A transaction's instruction is `transact` of that transaction around some access. -/
theorem exec_transact (x : Transaction) :
    ∃ k : State → State × Label, ∀ s, exec (decodeTxn x) s = transact x k s := by
  obtain ⟨-, he⟩ := decodeTxn_spec x
  cases hd : decodeTxn x
  case w32 | w64 | rd32 | violation =>
    rw [hd] at he
    simp only [encode, Input.txn.injEq] at he
    subst he
    apply Exists.intro
    intro s
    rw [exec]
    first | unfold execW32 | unfold execW64 | unfold execRd32 | unfold execViolation
    rfl
  all_goals (rw [hd] at he; simp [encode] at he)

/-- Any other instruction is a local-port body under `atPort`, and in Idle it answers. -/
theorem exec_atPort (i : Instr) (hi : ∀ x, encode i ≠ .txn x) :
    ∃ k : State → Host.Outcome State Fault Refusal,
      (∀ s, exec i s = atPort k s) ∧ ∀ s, ∃ t, k s = .next t := by
  have hw : ∀ (w : State → Option State) (s : State), ∃ t, writeBack (w s) s = .next t :=
    fun w s => by cases w s <;> exact ⟨_, rfl⟩
  have h32 : ∀ F d a b s, ∃ t, bin32 F d a b s = .next t := fun F d a b s => by
    unfold bin32; split
    · exact hw (fun s => write32 d _ s) s
    · exact ⟨_, rfl⟩
  have h64 : ∀ F d a b s, ∃ t, bin64 F d a b s = .next t := fun F d a b s => by
    unfold bin64; split
    · exact hw (fun s => write64 d _ s) s
    · exact ⟨_, rfl⟩
  have h1 : ∀ G d a s, ∃ t, un64 G d a s = .next t := fun G d a s => by
    unfold un64; split
    · exact hw (fun s => write64 d _ s) s
    · exact ⟨_, rfl⟩
  have hA : ∀ (w : State → Option State) (s : State), ∃ t, answerWrite (w s) s = .next t :=
    fun w s => by cases w s <;> exact ⟨_, rfl⟩
  have hd : ∀ r s, ∃ t, dispatch r s = .next t := fun r s => by
    unfold dispatch
    cases opOfCode r.op with
    | none => exact ⟨_, rfl⟩
    | some o => cases o <;> first | exact h32 _ _ _ _ _ | exact h64 _ _ _ _ _ | exact h1 _ _ _ _
  cases i
  case w32 | w64 | rd32 | violation => exact absurd rfl (hi _)
  all_goals
    refine ⟨_, fun _ => rfl, fun s => ?_⟩
    first
      | exact ⟨_, rfl⟩ | exact h32 _ _ _ _ _ | exact h64 _ _ _ _ _ | exact h1 _ _ _ _ | exact hd _ _
      | exact hA (fun s => write32 _ _ s) s | exact hA (fun s => write64 _ _ s) s
      | exact hA (fun s => writeSlot _ _ s) s

/-- What no transaction decodes to is no transaction's encoding. -/
theorem encode_ne_txn {inp : Input} {i : Instr} (h : decode inp = .instr i)
    (hx : ∀ x, inp ≠ .txn x) : ∀ x, encode i ≠ .txn x := by
  cases inp with
  | txn t => exact absurd rfl (hx t)
  | record r =>
    simp only [decode, Decoded.instr.injEq] at h; subst h
    unfold decodeRecord; split <;> simp [encode]
  | request r =>
    simp only [decode, Decoded.instr.injEq] at h; subst h
    unfold decodeRequest; split <;> simp [encode]
  | port c =>
    simp only [decode, Decoded.instr.injEq] at h; subst h
    cases c <;> simp [decodePort, encode]
  | runSlot n => simp [decode] at h
  | runStore => simp [decode] at h

/-- In Idle every instruction answers a next state. -/
theorem exec_idle (i : Instr) {s : State} (h : s.phase = .idle) : ∃ t, exec i s = .next t := by
  by_cases hi : ∀ x, encode i ≠ .txn x
  · obtain ⟨k, hk, hn⟩ := exec_atPort i hi
    rw [hk, atPort_idle h]; exact hn s
  · cases i
    case w32 | w64 | rd32 | violation =>
      rw [exec]
      first | unfold execW32 | unfold execW64 | unfold execRd32 | unfold execViolation
      exact ⟨_, transact_admitted (.inl h) _⟩
    all_goals simp [encode] at hi

/-- An admitted transaction answers a next state. -/
theorem exec_admitted {x : Transaction} {s : State} (h : Admitted x s) :
    ∃ t, exec (decodeTxn x) s = .next t := by
  obtain ⟨k, hk⟩ := exec_transact x
  exact ⟨_, (hk s).trans (transact_admitted h k)⟩

/-- Running a transaction from Idle is running it after it was accepted (R193, D27). -/
theorem exec_accept {s : State} {t : Transaction} (hp : s.phase = .idle) :
    exec (decodeTxn t) (accept t s) = exec (decodeTxn t) s := by
  obtain ⟨k, hk⟩ := exec_transact t
  rw [hk, hk, transact_admitted (.inl hp), transact_admitted (.inr ⟨rfl, rfl⟩)]
  simp [entered, hp]

/-- In BusyProcessing a step is the latched transaction's instruction. -/
theorem step_latched {s : State} {t : Transaction} (h : s.phase = .busyProcessing) (hc : s.cur = some t) :
    step s = exec (decodeTxn t) s := by simp [step, fetch, h, hc]

/-- A transaction does not look at what is waiting (R200). -/
theorem exec_txn_inputs {x : Transaction} {s v : State} (rest : List Input) (ha : Admitted x s)
    (h : exec (decodeTxn x) s = .next v) :
    exec (decodeTxn x) { s with inputs := rest } = .next { v with inputs := rest } := by
  obtain ⟨-, he⟩ := decodeTxn_spec x
  have ha' : Admitted x { s with inputs := rest } := ha
  have hen : entered x { s with inputs := rest } = { entered x s with inputs := rest } := by
    cases s with | mk a b c p e f g h j => cases p <;> rfl
  cases hd : decodeTxn x with
  | w32 a w =>
    rw [hd] at he h; simp only [encode, Input.txn.injEq] at he; subst he
    rw [exec, execW32, transact_admitted ha, write32_of_lt _ _ _ a.isLt, Host.Outcome.next.injEq] at h
    rw [exec, execW32, transact_admitted ha', write32_of_lt _ _ _ a.isLt, ← h, hen]; rfl
  | w64 a w =>
    rw [hd] at he h; simp only [encode, Input.txn.injEq] at he; subst he
    rw [exec, execW64, transact_admitted ha, write64_of_lt _ _ _ a.isLt, Host.Outcome.next.injEq] at h
    rw [exec, execW64, transact_admitted ha', write64_of_lt _ _ _ a.isLt, ← h, hen]; rfl
  | rd32 a =>
    rw [hd] at he h; simp only [encode, Input.txn.injEq] at he; subst he
    rw [exec, execRd32, transact_admitted ha, read32_of_lt _ _ a.isLt, Host.Outcome.next.injEq] at h
    rw [exec, execRd32, transact_admitted ha', read32_of_lt _ _ a.isLt, ← h, hen]; rfl
  | violation d a p =>
    rw [hd] at he h; simp only [encode, Input.txn.injEq] at he; subst he
    rw [exec, execViolation, transact_admitted ha, Host.Outcome.next.injEq] at h
    rw [exec, execViolation, transact_admitted ha', ← h, hen]; rfl
  | _ => rw [hd] at he; simp [encode] at he

end Sys2Proof.Machine
end

