-- ==== Sys2Proof/Laws/Operands.lean ====
section
/-! SUPPORT. The spec lemmas of the dispatcher's three templates (R141 to R143, R157, R158): each
either fails, changing nothing, or writes one entry; and what a draw and a transcendental can be
(R168, R170). -/

namespace Sys2Proof.Machine

/-- A local-port operation that only returns a value changes nothing. -/
theorem answer_only (r : PortResult) (s : State) :
    answer r s = .next (emit (.result r) s) ∧ ReturnedOnly r s (emit (.result r) s) :=
  ⟨rfl, ⟨⟨rfl, rfl, rfl, rfl⟩, rfl⟩, ⟨fun _ => rfl, fun _ => rfl⟩, fun _ => rfl, rfl⟩

/-- SPEC LEMMA of `writeBack` on the 32-bit space. -/
theorem writeBack32_spec (d : Nat) (v : Word32) (s : State) :
    (d < 256 → ∃ t, writeBack (write32 d v s) s = .next t ∧ read32 t d = some v ∧ OnlyR32 d s t ∧
      Returned (.status .ok) s t ∧ t.draws = s.draws + 1) ∧
    (256 ≤ d → writeBack (write32 d v s) s = answer (.status .dstRange) s) := by
  constructor
  · intro h
    obtain ⟨-, h1, h2, h3, -⟩ := write32_spec (write32_of_lt s d v h)
    rw [write32_of_lt s d v h]
    exact ⟨_, rfl, h1, h2, ⟨h3, rfl⟩, rfl⟩
  · intro h; rw [write32_of_ge s d v h]; rfl

/-- SPEC LEMMA of `writeBack` on the 64-bit space. -/
theorem writeBack64_spec (d : Nat) (v : Word64) (s : State) :
    (d < 256 → ∃ t, writeBack (write64 d v s) s = .next t ∧ read64 t d = some v ∧ OnlyR64 d s t ∧
      Returned (.status .ok) s t ∧ t.draws = s.draws + 1) ∧
    (256 ≤ d → writeBack (write64 d v s) s = answer (.status .dstRange) s) := by
  constructor
  · intro h
    obtain ⟨-, h1, h2, h3, -⟩ := write64_spec (write64_of_lt s d v h)
    rw [write64_of_lt s d v h]
    exact ⟨_, rfl, h1, h2, ⟨h3, rfl⟩, rfl⟩
  · intro h; rw [write64_of_ge s d v h]; rfl

/-- SPEC LEMMA of `bin32`: with the sources in range it is the write-back of `F`'s result, otherwise
`Fail(SRC_RANGE)`. -/
theorem bin32_spec (F : Datum → Datum → Datum) (d x y : Nat) (s : State) :
    (x < 256 → y < 256 → ∃ a b, read32 s x = some a ∧ read32 s y = some b ∧
      bin32 F d x y s = writeBack (write32 d (bits32 s.draws (F (f32 a) (f32 b))) s) s) ∧
    (256 ≤ x ∨ 256 ≤ y → bin32 F d x y s = answer (.status .srcRange) s) := by
  constructor
  · intro hx hy
    refine ⟨_, _, read32_of_lt s x hx, read32_of_lt s y hy, ?_⟩
    unfold bin32
    rw [read32_of_lt s x hx, read32_of_lt s y hy]
  · intro h
    unfold bin32
    rcases h with h | h
    · rw [read32_of_ge s x h]
    · rw [read32_of_ge s y h]; cases read32 s x <;> rfl

/-- SPEC LEMMA of `bin64`. -/
theorem bin64_spec (F : Datum → Datum → Datum) (d x y : Nat) (s : State) :
    (x < 256 → y < 256 → ∃ a b, read64 s x = some a ∧ read64 s y = some b ∧
      bin64 F d x y s = writeBack (write64 d (bits64 s.draws (F (f64 a) (f64 b))) s) s) ∧
    (256 ≤ x ∨ 256 ≤ y → bin64 F d x y s = answer (.status .srcRange) s) := by
  constructor
  · intro hx hy
    refine ⟨_, _, read64_of_lt s x hx, read64_of_lt s y hy, ?_⟩
    unfold bin64
    rw [read64_of_lt s x hx, read64_of_lt s y hy]
  · intro h
    unfold bin64
    rcases h with h | h
    · rw [read64_of_ge s x h]
    · rw [read64_of_ge s y h]; cases read64 s x <;> rfl

/-- SPEC LEMMA of `un64`: source1 is no argument of it at all. -/
theorem un64_spec (G : Nat → Word64 → Word64) (d x : Nat) (s : State) :
    (x < 256 → ∃ a, read64 s x = some a ∧
      un64 G d x s = writeBack (write64 d (G s.draws a) s) s) ∧
    (256 ≤ x → un64 G d x s = answer (.status .srcRange) s) := by
  constructor
  · intro hx
    refine ⟨_, read64_of_lt s x hx, ?_⟩
    unfold un64
    rw [read64_of_lt s x hx]
  · intro h
    unfold un64
    rw [read64_of_ge s x h]

/- ## Draws and transcendentals -/

/-- The fraction field of every binary32 draw is one of a NaN (R168). -/
theorem nanDraw32_bounds (n : Nat) :
    (Config.nanDraw32 n).2.val + 1 ≠ 0 ∧ (Config.nanDraw32 n).2.val + 1 < 2 ^ 23 := by
  have := (Config.nanDraw32 n).2.isLt
  simp only [Config.nNaN32] at this
  omega

/-- The fraction field of every binary64 draw is one of a NaN (R168). -/
theorem nanDraw64_bounds (n : Nat) :
    (Config.nanDraw64 n).2.val + 1 ≠ 0 ∧ (Config.nanDraw64 n).2.val + 1 < 2 ^ 52 := by
  have := (Config.nanDraw64 n).2.isLt
  simp only [Config.nNaN64] at this
  omega

/-- A binary64 pattern reads as a NaN exactly if it satisfies the predicate of R168. -/
theorem f64_eq_nan (w : Word64) : f64 w = .nan ↔ IsNaN 64 52 w := by
  rcases unpack_cases (n := 64) (p := 52) (by norm_num) w with
    ⟨h, h', -⟩ | ⟨h, h', -⟩ | ⟨h, h', -⟩ | ⟨m, e, h, h', -⟩ <;> (unfold f64; rw [binary64_eq, h])
  · exact ⟨fun _ => h', fun _ => rfl⟩
  all_goals exact ⟨fun e => (by cases e), fun e => absurd e h'⟩

/-- SPEC LEMMA of `transcendental` (R170, R168). -/
theorem transcendental_spec (G : Word64 → Word64) (n : Nat) (a : Word64) :
    FunctionSpec G a (transcendental G n a) := by
  unfold FunctionSpec transcendental
  by_cases h : IsNaN 64 52 (G a)
  · rw [if_pos h, if_pos ((f64_eq_nan _).mpr h)]
    exact pack_nan (n := 64) (p := 52) (by norm_num) _ (nanDraw64_bounds n).1 (nanDraw64_bounds n).2
  · rw [if_neg h, if_neg (fun h' => h ((f64_eq_nan _).mp h'))]

end Sys2Proof.Machine
end

