-- ==== Sys2Proof/Laws/PerInstr.lean ====
section
/-! SUPPORT. Family Format: every instruction is encoded in its own table row's format (30_encoding.md
R70, R75, R79, R86), one lemma per constructor. -/

namespace Sys2Proof

/-- The format an input arrives in; the two refused forms arrive in none. -/
def formatOfInput : Input → Option Format
  | .txn _ => some .bus
  | .record _ => some .oprec
  | .request _ => some .opreq
  | .port _ => some .port
  | .runSlot _ => none
  | .runStore => none

/-- The "format" column of spec/opcode_table.json. -/
def tableFormat : Instr → Format
  | .w32 _ _ => .bus
  | .w64 _ _ => .bus
  | .rd32 _ => .bus
  | .violation _ _ _ => .bus
  | .nop _ _ _ => .oprec
  | .load32 _ _ _ => .oprec
  | .load64 _ _ _ => .oprec
  | .store32 _ _ _ => .oprec
  | .store64 _ _ _ => .oprec
  | .executeOp _ _ _ => .oprec
  | .nopEquiv _ _ _ _ => .oprec
  | .add32 _ _ _ => .opreq
  | .sub32 _ _ _ => .opreq
  | .mul32 _ _ _ => .opreq
  | .div32 _ _ _ => .opreq
  | .add64 _ _ _ => .opreq
  | .sub64 _ _ _ => .opreq
  | .mul64 _ _ _ => .opreq
  | .div64 _ _ _ => .opreq
  | .sine64 _ _ _ => .opreq
  | .cosine64 _ _ _ => .opreq
  | .tangent64 _ _ _ => .opreq
  | .squareRoot64 _ _ _ => .opreq
  | .unsupported _ _ _ _ => .opreq
  | .read32 _ => .port
  | .read64 _ => .port
  | .write32 _ _ => .port
  | .write64 _ _ => .port
  | .rfClear => .port
  | .osWrite _ _ => .port
  | .osRead _ => .port
  | .osClear => .port
  | .execute _ _ _ _ => .port
  | .reset => .port

/-- The family's statement. -/
def Laws.Format.Statement (i : Instr) : Prop := formatOfInput (encode i) = some (tableFormat i)

theorem Laws.Format.w32 (a : Byte) (v : Word32) : Laws.Format.Statement (.w32 a v) := rfl

theorem Laws.Format.w64 (a : Byte) (v : Word64) : Laws.Format.Statement (.w64 a v) := rfl

theorem Laws.Format.rd32 (a : Byte) : Laws.Format.Statement (.rd32 a) := rfl

theorem Laws.Format.violation (d : Direction) (a : Byte) (p : List Byte) : Laws.Format.Statement (.violation d a p) := rfl

theorem Laws.Format.nop (x y z : Byte) : Laws.Format.Statement (.nop x y z) := rfl

theorem Laws.Format.load32 (x y z : Byte) : Laws.Format.Statement (.load32 x y z) := rfl

theorem Laws.Format.load64 (x y z : Byte) : Laws.Format.Statement (.load64 x y z) := rfl

theorem Laws.Format.store32 (x y z : Byte) : Laws.Format.Statement (.store32 x y z) := rfl

theorem Laws.Format.store64 (x y z : Byte) : Laws.Format.Statement (.store64 x y z) := rfl

theorem Laws.Format.executeOp (d x y : Byte) : Laws.Format.Statement (.executeOp d x y) := rfl

theorem Laws.Format.nopEquiv (k x y z : Byte) : Laws.Format.Statement (.nopEquiv k x y z) := rfl

theorem Laws.Format.add32 (d x y : Nat) : Laws.Format.Statement (.add32 d x y) := rfl

theorem Laws.Format.sub32 (d x y : Nat) : Laws.Format.Statement (.sub32 d x y) := rfl

theorem Laws.Format.mul32 (d x y : Nat) : Laws.Format.Statement (.mul32 d x y) := rfl

theorem Laws.Format.div32 (d x y : Nat) : Laws.Format.Statement (.div32 d x y) := rfl

theorem Laws.Format.add64 (d x y : Nat) : Laws.Format.Statement (.add64 d x y) := rfl

theorem Laws.Format.sub64 (d x y : Nat) : Laws.Format.Statement (.sub64 d x y) := rfl

theorem Laws.Format.mul64 (d x y : Nat) : Laws.Format.Statement (.mul64 d x y) := rfl

theorem Laws.Format.div64 (d x y : Nat) : Laws.Format.Statement (.div64 d x y) := rfl

theorem Laws.Format.sine64 (d x y : Nat) : Laws.Format.Statement (.sine64 d x y) := rfl

theorem Laws.Format.cosine64 (d x y : Nat) : Laws.Format.Statement (.cosine64 d x y) := rfl

theorem Laws.Format.tangent64 (d x y : Nat) : Laws.Format.Statement (.tangent64 d x y) := rfl

theorem Laws.Format.squareRoot64 (d x y : Nat) : Laws.Format.Statement (.squareRoot64 d x y) := rfl

theorem Laws.Format.unsupported (o : Byte) (d x y : Nat) : Laws.Format.Statement (.unsupported o d x y) := rfl

theorem Laws.Format.read32 (n : Nat) : Laws.Format.Statement (.read32 n) := rfl

theorem Laws.Format.read64 (n : Nat) : Laws.Format.Statement (.read64 n) := rfl

theorem Laws.Format.write32 (n : Nat) (v : Word32) : Laws.Format.Statement (.write32 n v) := rfl

theorem Laws.Format.write64 (n : Nat) (v : Word64) : Laws.Format.Statement (.write64 n v) := rfl

theorem Laws.Format.rfClear : Laws.Format.Statement (.rfClear) := rfl

theorem Laws.Format.osWrite (n : Nat) (r : Record) : Laws.Format.Statement (.osWrite n r) := rfl

theorem Laws.Format.osRead (n : Nat) : Laws.Format.Statement (.osRead n) := rfl

theorem Laws.Format.osClear : Laws.Format.Statement (.osClear) := rfl

theorem Laws.Format.execute (o : Byte) (d x y : Nat) : Laws.Format.Statement (.execute o d x y) := rfl

theorem Laws.Format.reset : Laws.Format.Statement (.reset) := rfl

end Sys2Proof
end

