-- ==== Sys2Proof/Tests/Slice0.lean ====
section
/-! SUPPORT. Tests on fixed values. Expected results are the vectors of 95_test_vectors.md (their
labels stand in the names or comments) and words written out from 30_encoding.md; then, for every
statement that has hypotheses, a witness that meets them all, clause by clause. -/

namespace Sys2Proof.Tests

open Sys2Proof.Machine

-- One theorem after the other: so many kernel evaluations at once run out of threads.
set_option Elab.async false

/- ## Well-formedness: one refused term for each of its three checks -/

/-- R71: (Write, 4) is W32, never a violation. -/
theorem test_wellFormed_refuses_handled_shape :
    (Instr.violation .write 3 [1, 2, 3, 4]).wellFormed = false ∧
    (Instr.violation .write 3 [1, 2, 3, 4, 5, 6, 7, 8]).wellFormed = false ∧
    (Instr.violation .read 3 []).wellFormed = false := by decide

/-- R77: kind byte 5 is ExecuteOp, never Nop-equivalent. -/
theorem test_wellFormed_refuses_known_kind :
    (Instr.nopEquiv 5 0 0 0).wellFormed = false ∧ (Instr.nopEquiv 0 0 0 0).wellFormed = false := by
  decide

/-- R80: identifier 11 is SquareRoot64, never unsupported. -/
theorem test_wellFormed_refuses_known_op :
    (Instr.unsupported 11 0 0 0).wellFormed = false := by decide

/- ## Decoding: words written out from the spec's encodings -/

/-- B1, B5, B2. -/
theorem test_decode_bus :
    decodeTxn ⟨.write, 0x03, [0x00, 0x00, 0x80, 0x3F]⟩ = .w32 3 0x3F800000 ∧
    decodeTxn ⟨.write, 0x03, [0x01, 0x02, 0x03, 0x04, 0x05, 0x06, 0x07, 0x08]⟩
      = .w64 3 0x0807060504030201 ∧
    decodeTxn ⟨.read, 0x03, []⟩ = .rd32 3 := by decide

/-- B8 to B13. -/
theorem test_decode_violation_write :
    ∀ p ∈ [[], [0xAA], [0xAA, 0xBB, 0xCC], [1, 2, 3, 4, 5], [1, 2, 3, 4, 5, 6, 7],
      [1, 2, 3, 4, 5, 6, 7, 8, 9]],
      decodeTxn ⟨.write, 0x03, p⟩ = .violation .write 0x03 p := by decide

/-- B15 to B17. -/
theorem test_decode_violation_read :
    ∀ p ∈ [[0x00], [0, 0, 0, 0], [0, 0, 0, 0, 0, 0, 0, 0]],
      decodeTxn ⟨.read, 0x03, p⟩ = .violation .read 0x03 p := by decide

/-- DC1 to DC6, the kind bytes of R76. -/
theorem test_decode_record :
    decodeRecord ⟨0x00, 0x00, 0x00, 0x00⟩ = .nop 0 0 0 ∧
    decodeRecord ⟨0x01, 0x01, 0x02, 0x03⟩ = .load32 1 2 3 ∧
    decodeRecord ⟨0x02, 0xFF, 0x00, 0x80⟩ = .load64 255 0 128 ∧
    decodeRecord ⟨0x03, 0x04, 0x05, 0x06⟩ = .store32 4 5 6 ∧
    decodeRecord ⟨0x04, 0x09, 0x09, 0x09⟩ = .store64 9 9 9 ∧
    decodeRecord ⟨0x05, 0x02, 0x00, 0x01⟩ = .executeOp 2 0 1 := by decide

/-- DC7, DC8. -/
theorem test_decode_nopEquiv :
    decodeRecord ⟨0x06, 0x00, 0x00, 0x00⟩ = .nopEquiv 0x06 0 0 0 ∧
    decodeRecord ⟨0xFF, 0xAA, 0xBB, 0xCC⟩ = .nopEquiv 0xFF 170 187 204 := by decide

/-- The twelve codes of R80. -/
theorem test_decode_request :
    [0, 1, 2, 3, 4, 5, 6, 7, 8, 9, 10, 11].map (fun c => decodeRequest ⟨BitVec.ofNat 8 c, 300, 1, 2⟩)
      = [.add32 300 1 2, .sub32 300 1 2, .mul32 300 1 2, .div32 300 1 2, .add64 300 1 2,
         .sub64 300 1 2, .mul64 300 1 2, .div64 300 1 2, .sine64 300 1 2, .cosine64 300 1 2,
         .tangent64 300 1 2, .squareRoot64 300 1 2] := by decide

/-- DF6, DF7. -/
theorem test_decode_unsupported :
    decodeRequest ⟨12, 0, 0, 0⟩ = .unsupported 12 0 0 0 ∧
    decodeRequest ⟨255, 999, 999, 999⟩ = .unsupported 255 999 999 999 := by decide

/-- The ordinals 0 to 9 of R86, operands zero. -/
theorem test_decode_port :
    (List.range 10).map (decodeTableWord 4)
      = [some (.read32 0), some (.read64 0), some (.write32 0 0), some (.write64 0 0),
         some .rfClear, some (.osWrite 0 ⟨0, 0, 0, 0⟩), some (.osRead 0), some .osClear,
         some (.execute 0 0 0 0), some .reset] := by decide

/-- The table's words of the other formats (R76, R80, R87). -/
theorem test_decode_table :
    decodeTableWord 16 0x104 = some (.w32 0 0) ∧ decodeTableWord 16 0x108 = some (.w64 0 0) ∧
    decodeTableWord 16 0x000 = some (.rd32 0) ∧ decodeTableWord 8 0x0B = some (.squareRoot64 0 0 0) ∧
    decodeTableWord 32 0x01000205 = some (.executeOp 2 0 1) := by decide

/-- The record word of OS2 (R75). -/
theorem test_recword : recword ⟨0x05, 0x02, 0x00, 0x01⟩ = 0x01000205 := by decide

/-- The bytes of a record, kind first, and back: four bytes make a record, five do not (R75, R5). -/
theorem test_record_bytes :
    recordBytes ⟨0x05, 0x02, 0x00, 0x01⟩ = [0x05, 0x02, 0x00, 0x01] ∧
    recordOfBytes [0x05, 0x02, 0x00, 0x01] = some ⟨0x05, 0x02, 0x00, 0x01⟩ ∧
    recordOfBytes [0x05, 0x02, 0x00, 0x01, 0x00] = none := by decide

/-- The codes and messages of R82. -/
theorem test_status :
    [OpStatus.ok, .srcRange, .dstRange, .unsupportedOp].map statusCode = [0, 1, 2, 3] ∧
    [OpStatus.ok, .srcRange, .dstRange, .unsupportedOp].map statusOk = [true, false, false, false] ∧
    statusMessage .srcRange = some "source register out of range" := by decide

/- ## Helpers -/

/-- The state of an outcome, if there is one. -/
def ran : Host.Outcome State Fault Refusal → Option State
  | .next s => some s
  | _ => none

/-- The refusal of an outcome, if it is one. -/
def refusal : Host.Outcome State Fault Refusal → Option Refusal
  | .refused r => some r
  | _ => none

/-- Entry `i` of the 32-bit space after it. -/
def then32 (o : Host.Outcome State Fault Refusal) (i : Nat) : Option Word32 :=
  (ran o).bind fun s => read32 s i

/-- Entry `i` of the 64-bit space after it. -/
def then64 (o : Host.Outcome State Fault Refusal) (i : Nat) : Option Word64 :=
  (ran o).bind fun s => read64 s i

/-- Slot `i` after it. -/
def thenSlot (o : Host.Outcome State Fault Refusal) (i : Nat) : Option Record :=
  (ran o).bind fun s => readSlot s i

/-- The events of one instruction from reset. -/
def events (o : Host.Outcome State Fault Refusal) : List Event :=
  match ran o with
  | some s => s.events
  | none => []

/-- `r32[0] = a`, `r32[1] = b` after reset. -/
def with32 (a b : Word32) : State :=
  { State.reset with r32 := (State.reset.r32.set 0 a).set 1 b }

/-- `r64[0] = a`, `r64[1] = b` after reset. -/
def with64 (a b : Word64) : State :=
  { State.reset with r64 := (State.reset.r64.set 0 a).set 1 b }

/-- Reset, but for some records in slots. -/
def withSlots (m : Memory) : State := { State.reset with slot := m }

/-- Reset, but for what is waiting. -/
def waiting (l : List Input) : State := { State.reset with inputs := l }

/-- Reset, but a transaction has been accepted. -/
def busyWith (t : Transaction) : State := accept t State.reset

/-- The transaction of S8. -/
def txnS8 : Transaction := ⟨.write, 0x03, [0x00, 0x00, 0x80, 0x3F]⟩

/- ## Bus -/

/-- S8, B1: the register, the busy pulse, the label. -/
theorem test_w32 :
    then32 (exec (decodeTxn txnS8) State.reset) 3 = some 0x3F800000 ∧
    events (exec (decodeTxn txnS8) State.reset)
      = [.setBusy true, .outcome .writeDone, .setBusy false] := by decide +kernel

/-- B3: the first byte is the least significant; the last register. -/
theorem test_w32_last :
    then32 (exec (decodeTxn ⟨.write, 0xFF, [0x78, 0x56, 0x34, 0x12]⟩) State.reset) 255
      = some 0x12345678 := by decide +kernel

/-- B5: the 64-bit entry, and the 32-bit one of the same address untouched. -/
theorem test_w64 :
    let o := exec (decodeTxn ⟨.write, 0x03, [1, 2, 3, 4, 5, 6, 7, 8]⟩) State.reset
    then64 o 3 = some 0x0807060504030201 ∧ then32 o 3 = some 0 := by decide +kernel

/-- S8, B2: the response, least significant byte first. -/
theorem test_rd32 :
    let t : Transaction := ⟨.read, 0x00, []⟩
    events (exec (decodeTxn t) (with32 0x3F800000 0))
      = [.setBusy true, .respond t [0x00, 0x00, 0x80, 0x3F],
         .outcome (.responded [0x00, 0x00, 0x80, 0x3F]), .setBusy false] := by decide +kernel

/-- B16: dropped, with the busy pulse and no response. -/
theorem test_violation :
    events (exec (decodeTxn ⟨.read, 0x03, [0, 0, 0, 0]⟩) State.reset)
      = [.setBusy true, .outcome (.dropped .unsupportedShape), .setBusy false] := by decide +kernel

/-- B11: no byte of the payload is used. -/
theorem test_violation_writes_nothing :
    then32 (exec (decodeTxn ⟨.write, 0x00, [1, 2, 3, 4, 5]⟩) (with32 7 0)) 0 = some 7 := by
  decide +kernel

/-- S9, R193: after the accept step busy is up and nothing is written yet. -/
theorem test_accept_step :
    (ran (step (waiting [.txn txnS8]))).map (fun s => (s.busy, s.phase, s.cur, s.events))
      = some (true, .busyProcessing, some txnS8, [.setBusy true]) ∧
    then32 (step (waiting [.txn txnS8])) 3 = some 0 := by decide +kernel

/-- The complete step that follows it. -/
theorem test_complete_step :
    (ran (step (busyWith txnS8))).map (fun s => (s.busy, s.phase, s.cur)) = some (false, .idle, none) ∧
    then32 (step (busyWith txnS8)) 3 = some 0x3F800000 := by decide +kernel

/-- B18: an idle poll. -/
theorem test_idle_poll : ran (step State.reset) = some State.reset := by decide +kernel

/-- R133, U7: refused by name. -/
theorem test_records_refused :
    refusal (step (waiting [.runSlot 5])) = some (.recordExecution 5) ∧
    refusal (step (waiting [.runStore])) = some .programExecution := by decide +kernel

/-- `withFetchWord` puts the table's word where the next step runs it, in every format. -/
theorem test_withFetchWord :
    events (step (State.reset.withFetchWord 16 0x104))
      = [.setBusy true, .outcome .writeDone, .setBusy false] ∧
    events (step (State.reset.withFetchWord 8 0)) = [.result (.status .ok)] ∧
    events (step (State.reset.withFetchWord 4 9)) = [.result .done] ∧
    events (step (State.reset.withFetchWord 32 5)) = [.result (.decoded .executeOp 0 0 0)] := by
  decide +kernel

/- ## Records -/

/-- DC1 to DC8 through `exec`: what the decoder yields for the kinds 0 to 5, 6 and 255. -/
theorem test_records :
    [⟨0, 0, 0, 0⟩, ⟨1, 1, 2, 3⟩, ⟨2, 0xFF, 0, 0x80⟩, ⟨3, 4, 5, 6⟩, ⟨4, 9, 9, 9⟩, ⟨5, 2, 0, 1⟩,
      ⟨6, 0, 0, 0⟩, ⟨0xFF, 0xAA, 0xBB, 0xCC⟩].map
        (fun r : Record => events (exec (decodeRecord r) State.reset))
      = [[.result (.decoded .nop 0 0 0)], [.result (.decoded .load32 1 2 3)],
         [.result (.decoded .load64 255 0 128)], [.result (.decoded .store32 4 5 6)],
         [.result (.decoded .store64 9 9 9)], [.result (.decoded .executeOp 2 0 1)],
         [.result (.decoded .nop 0 0 0)], [.result (.decoded .nop 170 187 204)]] := by
  decide +kernel

/- ## Register File -/

/-- RF1, RF7, RF8. -/
theorem test_read32 :
    events (exec (.read32 0) State.reset) = [.result (.word32 (some 0))] ∧
    events (exec (.read32 256) State.reset) = [.result (.word32 none)] ∧
    events (exec (.read32 65535) State.reset) = [.result (.word32 none)] := by decide +kernel

/-- RF2, RF5. -/
theorem test_read64 :
    events (exec (.read64 255) State.reset) = [.result (.word64 (some 0))] ∧
    events (exec (.read64 256) State.reset) = [.result (.word64 none)] := by decide +kernel

/-- RF3, RF4, RF5. -/
theorem test_write32 :
    let o := exec (.write32 255 0xDEADBEEF) State.reset
    events o = [.result (.success true)] ∧ then32 o 255 = some 0xDEADBEEF ∧ then64 o 255 = some 0 := by
  decide +kernel

/-- RF6: no wrap, no clamp. -/
theorem test_write32_out_of_range :
    let o := exec (.write32 256 0x12345678) State.reset
    events o = [.result (.success false)] ∧ then32 o 0 = some 0 ∧ then32 o 255 = some 0 := by
  decide +kernel

/-- RF9. -/
theorem test_write64 :
    let o := exec (.write64 0 0xFFFFFFFFFFFFFFFF) State.reset
    then64 o 0 = some 0xFFFFFFFFFFFFFFFF ∧ then32 o 0 = some 0 ∧ then32 o 1 = some 0 := by
  decide +kernel

/-- RF10. -/
theorem test_write64_out_of_range :
    events (exec (.write64 256 1) State.reset) = [.result (.success false)] := by decide +kernel

/-- RF12, Z3. -/
theorem test_rfClear :
    let o := exec .rfClear { with32 0x3F800000 9 with slot := [(3, ⟨5, 1, 2, 3⟩)] }
    then32 o 0 = some 0 ∧ then32 o 1 = some 0 ∧ thenSlot o 3 = some ⟨5, 1, 2, 3⟩ := by
  decide +kernel

/- ## Opcode Store -/

/-- S7, OS4, OS5. -/
theorem test_osWrite :
    let r : Record := ⟨0x04, 9, 9, 9⟩
    thenSlot (exec (.osWrite 1023 r) State.reset) 1023 = some r ∧
    events (exec (.osWrite 1023 r) State.reset) = [.result (.success true)] ∧
    events (exec (.osWrite 1024 r) State.reset) = [.result (.success false)] := by decide +kernel

/-- Slots written out of order, and one overwritten by the cleared record, stay canonical. -/
theorem test_osWrite_canonical :
    (ran (exec (.osWrite 2 ⟨5, 0, 0, 0⟩) (withSlots [(1, ⟨1, 0, 0, 0⟩), (7, ⟨0x77, 1, 2, 3⟩)]))).map
        (·.slot) = some [(1, ⟨1, 0, 0, 0⟩), (2, ⟨5, 0, 0, 0⟩), (7, ⟨0x77, 1, 2, 3⟩)] ∧
    (ran (exec (.osWrite 7 ⟨0, 0, 0, 0⟩) (withSlots [(7, ⟨0x77, 1, 2, 3⟩)]))).map (·.slot)
      = some [] := by decide +kernel

/-- OS1, OS6, OS7: the raw kind byte is kept. -/
theorem test_osRead :
    events (exec (.osRead 0) State.reset) = [.result (.record (some ⟨0, 0, 0, 0⟩))] ∧
    events (exec (.osRead 1024) State.reset) = [.result (.record none)] ∧
    events (exec (.osRead 7) (withSlots [(7, ⟨0x77, 1, 2, 3⟩)]))
      = [.result (.record (some ⟨0x77, 1, 2, 3⟩))] := by decide +kernel

/-- OS8, Z4. -/
theorem test_osClear :
    let o := exec .osClear { with32 0x3F800000 0 with slot := [(3, ⟨5, 1, 2, 3⟩)] }
    thenSlot o 3 = some ⟨0, 0, 0, 0⟩ ∧ then32 o 0 = some 0x3F800000 := by decide +kernel

/-- Z1. -/
theorem test_reset :
    let o := exec .reset { with32 0x3F800000 0 with slot := [(3, ⟨5, 1, 2, 3⟩)] }
    thenSlot o 3 = some ⟨0, 0, 0, 0⟩ ∧ then32 o 0 = some 0 ∧
    (ran o).map (fun s => (s.phase, s.busy, s.cur)) = some (.idle, false, none) := by decide +kernel

/- ## Dispatcher: failures (DF2 to DF10) -/

theorem test_execute_failures :
    [Instr.execute 0 2 256 1, .execute 0 2 0 256, .execute 0 256 0 1, .execute 0 256 256 256,
      .execute 12 0 0 0, .execute 255 999 999 999, .execute 11 1 256 0, .execute 11 256 0 0].map
        (fun i => events (exec i State.reset))
      = [[.result (.status .srcRange)], [.result (.status .srcRange)], [.result (.status .dstRange)],
         [.result (.status .srcRange)], [.result (.status .unsupportedOp)],
         [.result (.status .unsupportedOp)], [.result (.status .srcRange)],
         [.result (.status .dstRange)]] := by decide +kernel

/-- DF8: source1 of a unary operation is ignored. -/
theorem test_execute_unary :
    then64 (exec (.execute 11 1 0 999) (with64 0x4010000000000000 0)) 1 = some 0x4000000000000000 := by
  decide +kernel

theorem test_unsupported :
    events (exec (.unsupported 12 0 0 0) State.reset) = [.result (.status .unsupportedOp)] := by
  decide +kernel

/- ## Dispatcher: arithmetic, two vectors an operation -/

/-- A1 (S4), A9. -/
theorem test_add32 :
    then32 (exec (.add32 2 0 1) (with32 0x3FC00000 0x40200000)) 2 = some 0x40800000 ∧
    then32 (exec (.add32 2 0 1) (with32 0x3F800001 0x33800000)) 2 = some 0x3F800002 := by
  decide +kernel

/-- DF11: a source that is the destination; A2: overflow. -/
theorem test_add32_same :
    then32 (exec (.add32 0 0 0) (with32 0x3FC00000 0)) 0 = some 0x40400000 ∧
    then32 (exec (.add32 2 0 1) (with32 0x7F7FFFFF 0x7F7FFFFF)) 2 = some 0x7F800000 := by
  decide +kernel

/-- SB2, SB4: the order of the operands, and the sign of zero. -/
theorem test_sub32 :
    then32 (exec (.sub32 2 0 1) (with32 0x3FC00000 0x40200000)) 2 = some 0xBF800000 ∧
    then32 (exec (.sub32 2 0 1) (with32 0x80000000 0)) 2 = some 0x80000000 := by decide +kernel

/-- SB7, SB3: gradual underflow, exact cancellation. -/
theorem test_sub32_subnormal :
    then32 (exec (.sub32 2 0 1) (with32 0x00800000 1)) 2 = some 0x007FFFFF ∧
    then32 (exec (.sub32 2 0 1) (with32 0x3F800000 0x3F800000)) 2 = some 0 := by decide +kernel

/-- M1, M6: a tie of subnormals. -/
theorem test_mul32 :
    then32 (exec (.mul32 2 0 1) (with32 0x3FC00000 0x40200000)) 2 = some 0x40700000 ∧
    then32 (exec (.mul32 2 0 1) (with32 3 0x3F000000)) 2 = some 2 := by decide +kernel

/-- M3, M7: the sign of zero, underflow. -/
theorem test_mul32_zero :
    then32 (exec (.mul32 2 0 1) (with32 0xBF800000 0)) 2 = some 0x80000000 ∧
    then32 (exec (.mul32 2 0 1) (with32 0x00800000 0x00800000)) 2 = some 0 := by decide +kernel

/-- D6, D9: inexact, and which operand divides. -/
theorem test_div32 :
    then32 (exec (.div32 2 0 1) (with32 0x3F800000 0x40400000)) 2 = some 0x3EAAAAAB ∧
    then32 (exec (.div32 2 0 1) (with32 0x40C00000 0x40000000)) 2 = some 0x40400000 := by
  decide +kernel

/-- D2, D10: division by zero is data. -/
theorem test_div32_zero :
    then32 (exec (.div32 2 0 1) (with32 0x3F800000 0x80000000)) 2 = some 0xFF800000 ∧
    then32 (exec (.div32 2 0 1) (with32 0x7F800000 0x80000000)) 2 = some 0xFF800000 := by
  decide +kernel

/-- E6, E5. -/
theorem test_add64 :
    then64 (exec (.add64 2 0 1) (with64 0x3FB999999999999A 0x3FC999999999999A)) 2
      = some 0x3FD3333333333334 ∧
    then64 (exec (.add64 2 0 1) (with64 0x3FF0000000000001 0x3CA0000000000000)) 2
      = some 0x3FF0000000000002 := by decide +kernel

/-- E7, E9. -/
theorem test_sub64 :
    then64 (exec (.sub64 2 0 1) (with64 0x4004000000000000 0x3FF8000000000000)) 2
      = some 0x3FF0000000000000 ∧
    then64 (exec (.sub64 2 0 1) (with64 0x8000000000000000 0)) 2 = some 0x8000000000000000 := by
  decide +kernel

/-- E10, E12. -/
theorem test_mul64 :
    then64 (exec (.mul64 2 0 1) (with64 0x3FF8000000000000 0x4004000000000000)) 2
      = some 0x400E000000000000 ∧
    then64 (exec (.mul64 2 0 1) (with64 0x7FEFFFFFFFFFFFFF 0x4000000000000000)) 2
      = some 0x7FF0000000000000 := by decide +kernel

/-- E19, E15 (S5). -/
theorem test_div64 :
    then64 (exec (.div64 2 0 1) (with64 0x3FF0000000000000 0x4008000000000000)) 2
      = some 0x3FD5555555555555 ∧
    then64 (exec (.div64 2 0 1) (with64 0x3FF0000000000000 0)) 2 = some 0x7FF0000000000000 := by
  decide +kernel

/-- Q2, Q9: an inexact root, and the root of the smallest subnormal. -/
theorem test_squareRoot64 :
    then64 (exec (.squareRoot64 2 0 999) (with64 0x4000000000000000 0)) 2
      = some 0x3FF6A09E667F3BCD ∧
    then64 (exec (.squareRoot64 2 0 999) (with64 1 0)) 2 = some 0x1E60000000000000 := by
  decide +kernel

/-- Q4, Q12. -/
theorem test_squareRoot64_ends :
    then64 (exec (.squareRoot64 2 0 0) (with64 0x8000000000000000 0)) 2 = some 0x8000000000000000 ∧
    then64 (exec (.squareRoot64 2 0 0) (with64 0x7FEFFFFFFFFFFFFF 0)) 2 = some 0x5FEFFFFFFFFFFFFF := by
  decide +kernel

/-- T7: `Ok`, whatever the function; the 32-bit entry of the same index untouched. -/
theorem test_transcendentals :
    [Instr.sine64 2 0 999, .cosine64 2 0 999, .tangent64 2 0 999].map
        (fun i => events (exec i (with64 0x3FF0000000000000 0)))
      = [[.result (.status .ok)], [.result (.status .ok)], [.result (.status .ok)]] := by
  decide +kernel

/-- Where the vectors expect a NaN the datum is one: A3, A12, SB6, M2, D4, D5, E18, E21. -/
theorem test_nan_binary :
    binary32.add (f32 0x7F800000) (f32 0xFF800000) = .nan ∧
    binary32.add (f32 0x7FC00000) (f32 0x3F800000) = .nan ∧
    binary32.sub (f32 0x7F800000) (f32 0x7F800000) = .nan ∧
    binary32.mul (f32 0) (f32 0x7F800000) = .nan ∧ binary32.div (f32 0) (f32 0) = .nan ∧
    binary32.div (f32 0x7F800000) (f32 0x7F800000) = .nan ∧ binary64.div (f64 0) (f64 0) = .nan ∧
    binary64.div (f64 0x7FF0000000000000) (f64 0x7FF0000000000000) = .nan := by decide +kernel

/-- Q6 (S6), Q7, Q8, Q14. -/
theorem test_nan_root :
    [0xBFF0000000000000, 0xFFF0000000000000, 0x8000000000000001, 0x7FF8000000000000].map
      (fun w : Word64 => binary64.sqrt (f64 w)) = [.nan, .nan, .nan, .nan] := by decide +kernel

/- ## Witnesses: the hypotheses of each statement, met together, clause by clause -/

/-- DecodeAfterEncode, at the boundary of each well-formedness check. -/
theorem test_witness_decodeAfterEncode :
    (Instr.w32 255 0).wellFormed = true ∧ (Instr.violation .write 3 []).wellFormed = true ∧
    (Instr.violation .read 3 [0, 0, 0, 0]).wellFormed = true ∧
    (Instr.nopEquiv 6 0 0 0).wellFormed = true ∧ (Instr.unsupported 12 0 0 0).wellFormed = true := by
  decide

/-- EncodeAfterDecode, one input of each format. -/
theorem test_witness_encodeAfterDecode :
    decode (.txn txnS8) = .instr (.w32 3 0x3F800000) ∧
    decode (.record ⟨6, 1, 2, 3⟩) = .instr (.nopEquiv 6 1 2 3) ∧
    decode (.request ⟨12, 1, 2, 3⟩) = .instr (.unsupported 12 1 2 3) ∧
    decode (.port .osClear) = .instr .osClear := by decide

/-- ShapeDecode: a transaction of each shape. -/
theorem test_witness_shapeDecode :
    (txnS8.direction = .write ∧ txnS8.payload.length = 4) ∧
    ((⟨.write, 3, [1, 2, 3, 4, 5, 6, 7, 8]⟩ : Transaction).payload.length = 8) ∧
    ((⟨.read, 3, []⟩ : Transaction).payload.length = 0) ∧
    (Instr.violation .write 3 [1, 2, 3, 4, 5]).wellFormed = true := by decide

/-- StartupAndReset, RegisterClear, SlotClear and every other statement whose only hypothesis is that
the block is Idle (RecordKindsDecode, RegisterReads at 255 and 256, SlotRead, Write32Port,
Write64Port, the dispatcher's Answers statements at indices 255 and 256, ExecuteCheckOrder,
ExecuteIsTheMultiplexer, QueuedTransactionsInOrder). -/
theorem test_witness_idle : State.reset.phase = .idle ∧ (with32 1 2).phase = .idle := by decide +kernel

/-- StepKeepsInvariant and StepKeepsTraceOrder, in Idle. -/
theorem test_witness_invariants_idle :
    (waiting [.txn txnS8]).Inv ∧ (waiting [.txn txnS8]).TraceInv ∧
    ∃ t, step (waiting [.txn txnS8]) = .next t := ⟨by decide +kernel, by decide +kernel, _, rfl⟩

/-- StepKeepsInvariant and StepKeepsTraceOrder, in BusyProcessing. -/
theorem test_witness_invariants_busy :
    (busyWith txnS8).Inv ∧ (busyWith txnS8).TraceInv ∧ ∃ t, step (busyWith txnS8) = .next t :=
  ⟨by decide +kernel, by decide +kernel, by
    rw [step_latched (t := txnS8) rfl rfl]; exact exec_admitted (.inr ⟨rfl, rfl⟩)⟩

/-- StepAlwaysAnswers: the invariant with each of the two refused forms waiting. -/
theorem test_witness_stepAlwaysAnswers :
    (waiting [.runSlot 5]).Inv ∧ (waiting [.runStore]).Inv ∧ State.reset.Inv := by decide +kernel

/-- IdlePoll. -/
theorem test_witness_idlePoll : State.reset.phase = .idle ∧ State.reset.inputs = [] := by
  decide +kernel

/-- AcceptLatches and TwoStepsAreTheFusedOne. -/
theorem test_witness_acceptLatches :
    (waiting [.txn txnS8, .port .reset]).phase = .idle ∧
    (waiting [.txn txnS8, .port .reset]).inputs = .txn txnS8 :: [.port .reset] := by decide +kernel

/-- StepRunsDecoded, first clause; AcceptedCompletes. -/
theorem test_witness_latched :
    (busyWith txnS8).phase = .busyProcessing ∧ (busyWith txnS8).cur = some txnS8 := by decide +kernel

/-- StepRunsDecoded, second clause. -/
theorem test_witness_oldest_input :
    (waiting [.port .rfClear]).phase = .idle ∧ (waiting [.port .rfClear]).inputs = .port .rfClear :: [] ∧
    (∀ t, Input.port .rfClear ≠ .txn t) ∧ decode (.port .rfClear) = .instr .rfClear :=
  ⟨rfl, rfl, fun _ => by simp, rfl⟩

/-- RecordsAreNeverExecuted, both refused forms. -/
theorem test_witness_records :
    (waiting [.runSlot 5]).phase = .idle ∧ (waiting [.runSlot 5]).inputs = .runSlot 5 :: [] ∧
    (waiting [.runStore]).phase = .idle ∧ (waiting [.runStore]).inputs = .runStore :: [] := by
  decide +kernel

/-- W32WritesRegister, in Idle and in BusyProcessing. -/
theorem test_witness_w32 : Admitted txnS8 State.reset ∧ Admitted txnS8 (busyWith txnS8) :=
  ⟨.inl rfl, .inr ⟨rfl, rfl⟩⟩

/-- W64WritesRegister and Rd32Responds, at the last address. -/
theorem test_witness_w64_rd32 :
    Admitted ⟨.write, 255, [1, 2, 3, 4, 5, 6, 7, 8]⟩ State.reset ∧
    Admitted ⟨.read, 255, []⟩ (busyWith ⟨.read, 255, []⟩) := ⟨.inl rfl, .inr ⟨rfl, rfl⟩⟩

/-- ViolationDropped. -/
theorem test_witness_violation :
    (Instr.violation .read 3 [0, 0, 0, 0]).wellFormed = true ∧
    Admitted ⟨.read, 3, [0, 0, 0, 0]⟩ State.reset := ⟨by decide, .inl rfl⟩

/-- OverlappingRefused. -/
theorem test_witness_overlapping : ¬ Admitted ⟨.read, 3, []⟩ (busyWith txnS8) := by
  rintro (h | ⟨-, h⟩)
  · exact absurd h (by decide)
  · exact absurd h (by decide)

/-- LocalPortOnlyInIdle. -/
theorem test_witness_localPort :
    (busyWith txnS8).phase = .busyProcessing ∧ (∀ t, Input.port .reset ≠ .txn t) ∧
    decode (.port .reset) = .instr .reset := ⟨rfl, fun _ => by simp, rfl⟩

/-- ResetWaitsForTransaction. -/
theorem test_witness_resetWaits :
    let s := { busyWith txnS8 with inputs := [.port .reset, .txn txnS8] }
    s.phase = .busyProcessing ∧ s.cur = some txnS8 ∧ s.inputs = .port .reset :: [.txn txnS8] := by
  decide +kernel

/-- RegisterRoundTrip and SpacesDoNotAlias, at the last index; RegisterReads, Write32Port,
Write64Port at both sides of the bound. -/
theorem test_witness_registers :
    State.reset.phase = .idle ∧ (255 : Nat) < 256 ∧ ¬ (256 : Nat) < 256 := by decide

/-- SlotWrite and SlotRoundTrip, at both sides of the bound, on a memory that lists slots. -/
theorem test_witness_slots :
    (withSlots [(3, ⟨5, 1, 2, 3⟩), (1023, ⟨0x77, 0, 0, 0⟩)]).phase = .idle ∧
    Memory.wf (withSlots [(3, ⟨5, 1, 2, 3⟩), (1023, ⟨0x77, 0, 0, 0⟩)]).slot ∧
    (1023 : Nat) < 1024 ∧ ¬ (1024 : Nat) < 1024 := by decide +kernel

/-- The canonical form refuses a cleared record, a repeated index and an index that is no slot. -/
theorem test_wf_refuses :
    ¬ Memory.wf [(3, ⟨0, 0, 0, 0⟩)] ∧ ¬ Memory.wf [(3, ⟨1, 0, 0, 0⟩), (3, ⟨1, 0, 0, 0⟩)] ∧
    ¬ Memory.wf [(1024, ⟨1, 0, 0, 0⟩)] := by decide

/-- ClearsIdempotent. -/
theorem test_witness_clears :
    State.reset.phase = .idle ∧ ∀ i ∈ [Instr.reset, .rfClear, .osClear],
      i = .reset ∨ i = .rfClear ∨ i = .osClear := by decide

/-- UnsupportedFails, at both ends of 12 to 255. -/
theorem test_witness_unsupported :
    State.reset.phase = .idle ∧ 12 ≤ (12 : Byte).toNat ∧ 12 ≤ (255 : Byte).toNat := by decide

/-- The clauses of the Answers statements and of ExecuteCheckOrder at the bounds of the indices and of
the identifiers: 255 is in range and 256 is not, 7 is binary, 8 and 11 are unary, 12 is unsupported. -/
theorem test_witness_answers :
    (255 : Nat) < 256 ∧ 256 ≤ (256 : Nat) ∧ (7 : Byte).toNat < 8 ∧ ¬ (8 : Byte).toNat < 8 ∧
    ¬ 12 ≤ (11 : Byte).toNat ∧ 12 ≤ (12 : Byte).toNat := by decide

/-- NanDraws and ReinterpretationInverse: patterns that are NaNs and patterns that are not. -/
theorem test_witness_nan :
    IsNaN 32 23 0x7FC00000 ∧ IsNaN 32 23 0xFF800001 ∧ IsNaN 64 52 0x7FF8000000000000 ∧
    ¬ IsNaN 32 23 0x7F800000 ∧ ¬ IsNaN 32 23 0x3F800000 ∧ ¬ IsNaN 64 52 0xFFF0000000000000 := by
  decide

/-- Every row of the four case tables has patterns that fall under it (R163 to R166). -/
theorem test_witness_rows :
    IsInf 32 23 0x7F800000 ∧ IsInf 32 23 0xFF800000 ∧ (0xFF800000 : Word32).msb = true ∧
    IsZero 32 23 0 ∧ IsZero 32 23 0x80000000 ∧ IsFinite 32 23 0x7F7FFFFF ∧
    ¬ IsZero 32 23 0x00000001 ∧ IsFinite 32 23 0x00000001 ∧ IsInf 64 52 0x7FF0000000000000 ∧
    IsFinite 64 52 0x8000000000000001 ∧ (0x8000000000000001 : Word64).msb = true := by decide

/-- The last row of the tables needs a value that is not zero: that of 1.0 is 1. -/
theorem test_valueOf_one : valueOf 32 23 0x3F800000 = 1 := by
  have h1 : expField 32 23 0x3F800000 = 127 := by decide
  have h2 : fracField 32 23 0x3F800000 = 0 := by decide
  have h3 : (0x3F800000 : Word32).msb = false := by decide
  have h4 : biasOf 32 23 = 127 := by decide
  simp only [valueOf, h1, h2, h3, h4]
  norm_num

/-- OptionalHypotheses, the state and operands. -/
theorem test_witness_optional : read64 State.reset 255 = some 0 ∧ (255 : Nat) < 256 := by decide +kernel

/-- OptionalHypotheses, clauses (a), (b) and (c): each hypothesis is met by some function, and its
argument exists. -/
theorem test_witness_optional_abc :
    (NanGivesNan id ∧ IsNaN 64 52 0x7FF8000000000000) ∧
    (InfGivesNan (fun _ => 0x7FF8000000000000) ∧ IsInf 64 52 0xFFF0000000000000) ∧
    (KeepsZero id ∧ IsZero 64 52 0x8000000000000000) ∧ ZeroGivesOne (fun _ => 0x3FF0000000000000) :=
  have h : IsNaN 64 52 0x7FF8000000000000 := by decide
  ⟨⟨fun _ h => h, h⟩, ⟨fun _ _ => h, by decide⟩, ⟨fun _ _ => rfl, by decide⟩, fun _ _ => rfl⟩

/-- The value of +0 is 0. -/
theorem test_valueOf_zero : valueOf 64 52 0 = 0 := by
  have h1 : expField 64 52 0 = 0 := by decide
  have h2 : fracField 64 52 0 = 0 := by decide
  rw [valueOf, h1, h2]; norm_num

/-- OptionalHypotheses, clauses (d) and (e), by the function that is zero everywhere. -/
theorem test_witness_optional_de :
    BoundedByOne (fun _ => 0) ∧ WithinUlps (fun _ => 0) (fun _ => 0) 0 ∧
    IsFinite 64 52 0x3FF0000000000000 := by
  have h : IsFinite 64 52 0 := by decide
  refine ⟨fun _ _ => ⟨h, ?_⟩, fun _ _ => ⟨h, ?_⟩, by decide⟩
  · rw [test_valueOf_zero]; norm_num
  · rw [test_valueOf_zero]; norm_num

/-- OnlyWritersChangeRegisters and OnlyStoreChangesSlots: an instruction that answers and may write
neither space, one that may write one of them, and one that may write no slot. -/
theorem test_witness_writers :
    (∃ t, exec (.read32 0) State.reset = .next t) ∧ (mayWrite (.read32 0)).r32 = false ∧
    (mayWrite (.read32 0)).r64 = false ∧ (∃ t, exec (.w64 3 1) State.reset = .next t) ∧
    (mayWrite (.w64 3 1)).r32 = false ∧ (mayWrite (.w64 3 1)).slot = false :=
  ⟨exec_idle _ rfl, rfl, rfl, exec_idle _ rfl, rfl, rfl⟩

end Sys2Proof.Tests
end

section
/-! PROOFS. The byte order (00_scope.md R7) as arithmetic on the bytes of a word. -/

namespace Sys2Proof

/-- `bytes_le32` as numbers: the base-256 digits of the word, the least significant first (R7). -/
theorem bytesLe32_map_toNat (w : Word32) :
    (bytesLe32 w).map BitVec.toNat = (List.range 4).map fun i => w.toNat / 2 ^ (8 * i) % 2 ^ 8 := by
  simp only [bytesLe32, List.map, byteOf_toNat]
  rfl

/-- `bytes_le64` as numbers: the base-256 digits of the word, the least significant first (R7). -/
theorem bytesLe64_map_toNat (w : Word64) :
    (bytesLe64 w).map BitVec.toNat = (List.range 8).map fun i => w.toNat / 2 ^ (8 * i) % 2 ^ 8 := by
  simp only [bytesLe64, List.map, byteOf_toNat]
  rfl

/-- Settles O6: assembly by the value of `le32` and of the two halves of `le64`, serialization by
the value of each `byteOf`. -/
theorem littleEndian : Obligations.LittleEndian := by
  refine ⟨le32_toNat, fun b0 b1 b2 b3 b4 b5 b6 b7 => ?_, bytesLe32_map_toNat,
    bytesLe64_map_toNat, by decide⟩
  rw [le64_toNat, le32_toNat, le32_toNat]
  omega

end Sys2Proof
end

section
/-! PROOFS. The two register spaces do not alias (R13). -/

namespace Sys2Proof.Machine

/-- Settles O32: the state each write answers with differs from `s` in its own space's vector only,
so the other space's vector, and with it every entry, is that of `s`. -/
theorem spacesDoNotAlias : Obligations.SpacesDoNotAlias := by
  intro s i j v d hi _
  exact ⟨⟨_, write32_of_lt s i v hi, rfl⟩, ⟨_, write64_of_lt s i d hi, rfl⟩⟩

end Sys2Proof.Machine
end

section
/-! PROOFS. The Register File at the local port (40_register_file.md R100 to R104). -/

namespace Sys2Proof.Machine

/- ## The port's register rows in Idle -/

theorem exec_read32 {s : State} (h : s.phase = .idle) (i : Nat) :
    exec (.read32 i) s = answer (.word32 (read32 s i)) s := atPort_idle h _

theorem exec_read64 {s : State} (h : s.phase = .idle) (i : Nat) :
    exec (.read64 i) s = answer (.word64 (read64 s i)) s := atPort_idle h _

theorem exec_write32 {s : State} (h : s.phase = .idle) (i : Nat) (v : Word32) :
    exec (.write32 i v) s = answerWrite (write32 i v s) s := atPort_idle h _

theorem exec_write64 {s : State} (h : s.phase = .idle) (i : Nat) (v : Word64) :
    exec (.write64 i v) s = answerWrite (write64 i v s) s := atPort_idle h _

theorem exec_rfClear {s : State} (h : s.phase = .idle) :
    exec .rfClear s = answer .done (clearRegisters s) :=
  atPort_idle h fun s => answer .done (clearRegisters s)

/- ## What an answer keeps -/

/-- Answering from a state with the control and the events of `s` is a return seen from `s`. -/
theorem returned_emit {s u : State} (r : PortResult) (hc : SameControl s u)
    (he : u.events = s.events) : Returned r s (emit (.result r) u) :=
  ⟨hc, by rw [emit_events, he]⟩

/- ## The cleared register spaces -/

theorem read32_clearRegisters (s : State) {i : Nat} (h : i < 256) :
    read32 (clearRegisters s) i = some 0 := by
  simp [read32_of_lt _ i h]

theorem read64_clearRegisters (s : State) {i : Nat} (h : i < 256) :
    read64 (clearRegisters s) i = some 0 := by
  simp [read64_of_lt _ i h]

/-- Two clears leave the same registers, whatever stood there before. -/
theorem sameRegisters_clearRegisters (s t : State) :
    SameRegisters (clearRegisters s) (clearRegisters t) :=
  ⟨read32_congr rfl, read64_congr rfl⟩

/- ## The obligations -/

/-- Settles O29: below 256 the write succeeds and `write32_spec` is its effect; from 256 on it is
rejected and only the answer is put out. -/
theorem write32Port : Obligations.Write32Port := by
  intro s i v hs
  rw [exec_write32 hs]
  split
  next hi =>
    have hw := write32_of_lt s i v hi
    obtain ⟨-, hread, honly, hctl, -, hev, hdraws⟩ := write32_spec hw
    rw [hw]
    exact ⟨_, rfl, hread, honly, returned_emit _ hctl hev, hdraws⟩
  next hi =>
    rw [write32_of_ge s i v (by omega)]
    exact ⟨_, answer_only _ s⟩

/-- Settles O30: as for `write32Port`, by `write64_spec`. -/
theorem write64Port : Obligations.Write64Port := by
  intro s i v hs
  rw [exec_write64 hs]
  split
  next hi =>
    have hw := write64_of_lt s i v hi
    obtain ⟨-, hread, honly, hctl, -, hev, hdraws⟩ := write64_spec hw
    rw [hw]
    exact ⟨_, rfl, hread, honly, returned_emit _ hctl hev, hdraws⟩
  next hi =>
    rw [write64_of_ge s i v (by omega)]
    exact ⟨_, answer_only _ s⟩

/-- Settles O33: the answered state is the cleared one but for its event, and is Idle again, so the
second clear runs and finds the registers it leaves. -/
theorem registerClear : Obligations.RegisterClear := by
  intro s hs
  have hidle : (emit (.result .done) (clearRegisters s)).phase = .idle := hs
  exact ⟨_, exec_rfClear hs,
    fun i hi => ⟨read32_clearRegisters s hi, read64_clearRegisters s hi⟩,
    readSlot_congr rfl, returned_emit _ ⟨rfl, rfl, rfl, rfl⟩ rfl, rfl,
    _, exec_rfClear hidle,
    sameRegisters_clearRegisters s (emit (.result .done) (clearRegisters s))⟩

/-- Settles O28: the port answers `read32` and `read64`, which are the vectors' own bounded reads. -/
theorem registerReads : Obligations.RegisterReads := by
  intro s i hs
  rw [exec_read32 hs, exec_read64 hs, ← read32_eq, ← read64_eq]
  refine ⟨⟨_, answer_only _ s⟩, ⟨_, answer_only _ s⟩, fun hi => ?_, fun hi => ?_⟩
  · exact ⟨read32_of_ge s i hi, read64_of_ge s i hi⟩
  · exact ⟨⟨_, read32_of_lt s i hi⟩, _, read64_of_lt s i hi⟩

end Sys2Proof.Machine
end

section
/-! PROOFS. The idle poll of the control loop (43_bus_protocol.md R201). -/

namespace Sys2Proof.Machine

/-- R201: in Idle with nothing waiting, `poll()` returns none and the state is left as it is. -/
theorem fetch_idle_of_no_input {s : State} (hp : s.phase = .idle) (hi : s.inputs = []) :
    fetch s = .idlePoll s := by
  rw [fetch, hp, hi]

/-- Settles O13: the turn is an idle poll, and an idle poll answers the state it was given. -/
theorem idlePoll : Obligations.IdlePoll := by
  intro s hp hi
  rw [step, fetch_idle_of_no_input hp hi]

end Sys2Proof.Machine
end

section
/-! PROOFS. Reset and the two clears, each run twice (70_reset_and_hazards.md R256). -/

namespace Sys2Proof.Machine

/- ## The port's other two clearing rows in Idle (`exec_rfClear` is the first) -/

theorem exec_osClear {s : State} (h : s.phase = .idle) :
    exec .osClear s = answer .done (clearSlots s) :=
  atPort_idle h fun s => answer .done (clearSlots s)

theorem exec_reset {s : State} (h : s.phase = .idle) :
    exec .reset s = answer .done (resetBlock s) :=
  atPort_idle h fun s => answer .done (resetBlock s)

/- ## The three updates: idempotent, and blind to the event stream -/

@[simp] theorem clearRegisters_clearRegisters (s : State) :
    clearRegisters (clearRegisters s) = clearRegisters s := rfl

@[simp] theorem clearSlots_clearSlots (s : State) :
    clearSlots (clearSlots s) = clearSlots s := rfl

@[simp] theorem resetBlock_resetBlock (s : State) :
    resetBlock (resetBlock s) = resetBlock s := rfl

@[simp] theorem clearRegisters_emit (e : Event) (s : State) :
    clearRegisters (emit e s) = emit e (clearRegisters s) := rfl

@[simp] theorem clearSlots_emit (e : Event) (s : State) :
    clearSlots (emit e s) = emit e (clearSlots s) := rfl

@[simp] theorem resetBlock_emit (e : Event) (s : State) :
    resetBlock (emit e s) = emit e (resetBlock s) := rfl

/- ## An instruction that answers such an update -/

/-- An event changes no control. -/
theorem sameControl_emit (e : Event) (s : State) : SameControl s (emit e s) :=
  ⟨rfl, rfl, rfl, rfl⟩

/-- Where `i` answers an idempotent update that does not look at the events, a second run right
after the first adds its answer to the stream and nothing else (R256). -/
theorem exec_twice_of_idempotent {i : Instr} {f : State → State} {s : State}
    (hexec : ∀ {v : State}, v.phase = .idle → exec i v = answer .done (f v))
    (hidem : ∀ v, f (f v) = f v) (hemit : ∀ e v, f (emit e v) = emit e (f v))
    (hs : s.phase = .idle) (hfs : (f s).phase = .idle) :
    exec i s = .next (emit (.result .done) (f s)) ∧
      exec i (emit (.result .done) (f s)) =
        .next (emit (.result .done) (emit (.result .done) (f s))) := by
  refine ⟨hexec hs, ?_⟩
  calc exec i (emit (.result .done) (f s))
    _ = answer .done (f (emit (.result .done) (f s))) := hexec hfs
    _ = answer .done (emit (.result .done) (f s)) := by rw [hemit, hidem]
    _ = .next (emit (.result .done) (emit (.result .done) (f s))) := rfl

/-- Settles O38: each of the three answers an idempotent update, so the second run leaves the first
one's state but for its own answer; what the first one keeps is read off its update. -/
theorem clearsIdempotent : Obligations.ClearsIdempotent := by
  rintro s i hs (rfl | rfl | rfl)
  case inl =>
    obtain ⟨hfirst, hsecond⟩ := exec_twice_of_idempotent exec_reset resetBlock_resetBlock
      resetBlock_emit hs (resetBlock_phase s)
    exact ⟨_, _, hfirst, hsecond, rfl, rfl, rfl, sameControl_emit _ _, rfl, rfl, nofun, nofun⟩
  case inr.inl =>
    obtain ⟨hfirst, hsecond⟩ := exec_twice_of_idempotent exec_rfClear clearRegisters_clearRegisters
      clearRegisters_emit hs hs
    exact ⟨_, _, hfirst, hsecond, rfl, rfl, rfl, sameControl_emit _ _, rfl, rfl,
      fun _ => ⟨rfl, rfl, rfl, rfl, rfl⟩, nofun⟩
  case inr.inr =>
    obtain ⟨hfirst, hsecond⟩ := exec_twice_of_idempotent exec_osClear clearSlots_clearSlots
      clearSlots_emit hs hs
    exact ⟨_, _, hfirst, hsecond, rfl, rfl, rfl, sameControl_emit _ _, rfl, rfl,
      nofun, fun _ => ⟨rfl, rfl, rfl, rfl, rfl, rfl⟩⟩

end Sys2Proof.Machine
end

section
/-! PROOFS. The decoders against the encoder (30_encoding.md sections 1 to 4). -/

namespace Sys2Proof

/- ## Records and requests: the decoders of formats OPREC and OPREQ -/

/-- SPEC LEMMA of `decodeRecord`: what it yields is well-formed, and the record is its encoding. -/
theorem decodeRecord_spec (r : Record) :
    (decodeRecord r).wellFormed = true ∧ encode (decodeRecord r) = .record r := by
  obtain ⟨k, x, y, z⟩ := r
  cases hk : kindOfCode k with
  | none => simpa [decodeRecord, hk, Instr.wellFormed, encode] using (kindOfCode_eq_none_iff k).mp hk
  | some kind =>
    obtain rfl := eq_kindCode hk
    cases kind <;> simp [decodeRecord, kindOfCode_kindCode, Instr.wellFormed, encode]

/-- A kind byte from 6 on is Nop-equivalent (R131). -/
theorem decodeRecord_nopEquiv {k : Byte} (h : 6 ≤ k.toNat) (x y z : Byte) :
    decodeRecord ⟨k, x, y, z⟩ = .nopEquiv k x y z := by
  simp only [decodeRecord, (kindOfCode_eq_none_iff k).mpr h]

/-- SPEC LEMMA of `decodeRequest`: what it yields is well-formed, and the request is its encoding. -/
theorem decodeRequest_spec (r : Request) :
    (decodeRequest r).wellFormed = true ∧ encode (decodeRequest r) = .request r := by
  obtain ⟨c, d, x, y⟩ := r
  cases hc : opOfCode c with
  | none => simpa [decodeRequest, hc, Instr.wellFormed, encode] using (opOfCode_eq_none_iff c).mp hc
  | some o =>
    obtain rfl := eq_opCode hc
    cases o <;> simp [decodeRequest, opOfCode_opCode, Instr.wellFormed, encode]

/-- An identifier from 12 on is unsupported (R156). -/
theorem decodeRequest_unsupported {c : Byte} (h : 12 ≤ c.toNat) (d x y : Nat) :
    decodeRequest ⟨c, d, x, y⟩ = .unsupported c d x y := by
  simp only [decodeRequest, (opOfCode_eq_none_iff c).mpr h]

/-- SPEC LEMMA of `decodePort`: every call is the encoding of a well-formed instruction (R86). -/
theorem decodePort_spec (c : PortCall) :
    (decodePort c).wellFormed = true ∧ encode (decodePort c) = .port c := by
  cases c <;> exact ⟨rfl, rfl⟩

/- ## The effective kind (R77) -/

/-- A recognized code names its own kind. -/
@[simp] theorem effKind_kindCode (k : Kind) : effKind (kindCode k) = k := by
  rw [effKind, kindOfCode_kindCode, Option.getD_some]

/-- Every other kind byte counts as Nop. -/
theorem effKind_of_ge {k : Byte} (h : 6 ≤ k.toNat) : effKind k = .nop := by
  rw [effKind, (kindOfCode_eq_none_iff k).mpr h, Option.getD_none]

/- ## The obligations -/

/-- Settles O2, format by format: the bus rows by the byte order and the violation's shape, a record
or a request by its code's row of the table, a port call by its name. -/
theorem decodeAfterEncode : Obligations.DecodeAfterEncode := by
  intro i hi
  cases i with
  | w32 a v => exact congrArg Decoded.instr (decodeTxn_w32 a v)
  | w64 a v => exact congrArg Decoded.instr (decodeTxn_w64 a v)
  | violation d a p =>
    exact congrArg Decoded.instr (decodeTxn_violation d a p (by simpa [Instr.wellFormed] using hi))
  | nop _ _ _ | load32 _ _ _ | load64 _ _ _ | store32 _ _ _ | store64 _ _ _ | executeOp _ _ _ =>
    simp only [encode, decode, decodeRecord, kindOfCode_kindCode]
  | nopEquiv k x y z =>
    exact congrArg Decoded.instr (decodeRecord_nopEquiv (by simpa [Instr.wellFormed] using hi) x y z)
  | add32 _ _ _ | sub32 _ _ _ | mul32 _ _ _ | div32 _ _ _ | add64 _ _ _ | sub64 _ _ _ | mul64 _ _ _
  | div64 _ _ _ | sine64 _ _ _ | cosine64 _ _ _ | tangent64 _ _ _ | squareRoot64 _ _ _ =>
    simp only [encode, decode, decodeRequest, opOfCode_opCode]
  | unsupported c d x y =>
    exact congrArg Decoded.instr
      (decodeRequest_unsupported (by simpa [Instr.wellFormed] using hi) d x y)
  | rd32 _ | read32 _ | read64 _ | write32 _ _ | write64 _ _ | rfClear | osWrite _ _ | osRead _
  | osClear | execute _ _ _ _ | reset => rfl

/-- Settles O3: in each format the decoder's spec lemma says both; the two refused forms decode to
no instruction. -/
theorem encodeAfterDecode : Obligations.EncodeAfterDecode := by
  intro inp i h
  cases inp with
  | txn t => cases h; exact decodeTxn_spec t
  | record r => cases h; exact decodeRecord_spec r
  | request r => cases h; exact decodeRequest_spec r
  | port c => cases h; exact decodePort_spec c
  | runSlot _ | runStore => cases h

/-- Settles O4: a payload of 4, 8 or no bytes is written out, and what falls under none of the three
rows is of no handled shape. -/
theorem shapeDecode : Obligations.ShapeDecode := by
  rintro ⟨d, a, p⟩
  split_ifs with h4 h8 h0
  · obtain ⟨rfl, hp⟩ := h4
    match p, hp with
    | [b0, b1, b2, b3], _ => exact ⟨b0, b1, b2, b3, rfl, rfl⟩
  · obtain ⟨rfl, hp⟩ := h8
    match p, hp with
    | [b0, b1, b2, b3, b4, b5, b6, b7], _ => exact ⟨b0, b1, b2, b3, b4, b5, b6, b7, rfl, rfl⟩
  · obtain ⟨rfl, hp⟩ := h0
    obtain rfl := List.eq_nil_of_length_eq_zero hp
    rfl
  · refine decodeTxn_violation d a p ?_
    cases d <;> simp_all [handledShape]

/-- Settles O5: the kind is the effective one, compared with the table over all 256 kind bytes. -/
theorem recordDecode : Obligations.RecordDecode := by
  rintro ⟨k, x, y, z⟩
  refine ⟨effKind k, rfl, ?_⟩
  dsimp only
  revert k
  decide

/-- Settles O7: `bytes_le32`, `le32_bytes` and the same two at 64 bits. -/
theorem littleEndianInverse : Obligations.LittleEndianInverse :=
  ⟨bytes_le32, fun w => ⟨_, _, _, _, rfl, le32_bytes w⟩,
    bytes_le64, fun w => ⟨_, _, _, _, _, _, _, _, rfl, le64_bytes w⟩⟩

/-- Settles O1 by running the decoder on the ten inputs. -/
theorem specWordsDecode : Obligations.SpecWordsDecode := by
  unfold Obligations.SpecWordsDecode
  decide

end Sys2Proof
end

section
/-! PROOFS. One step of the machine: what it does with the input it takes up, and the two invariants
(10_state.md section 4; 43_bus_protocol.md sections 2, 4, 6). -/

namespace Sys2Proof.Machine

/- ## The step, by what is waiting in an Idle block -/

/-- R191 row 2: a waiting transaction is accepted. -/
theorem step_accept {s : State} {x : Transaction} {rest : List Input} (hp : s.phase = .idle)
    (hi : s.inputs = .txn x :: rest) : step s = .next (accept x { s with inputs := rest }) := by
  simp only [step, fetch, hp, hi]

/-- R205: any other input that decodes is run. -/
theorem step_run {s : State} {inp : Input} {rest : List Input} {i : Instr} (hp : s.phase = .idle)
    (hi : s.inputs = inp :: rest) (hx : ∀ x, inp ≠ .txn x) (hd : decode inp = .instr i) :
    step s = exec i { s with inputs := rest } := by
  cases inp with
  | txn x => exact absurd rfl (hx x)
  | runSlot _ | runStore => cases hd
  | record _ | request _ | port _ => simp only [step, fetch, hp, hi, hd]

/-- R133: an input that the decoder rejects is refused under its name. -/
theorem step_rejected {s : State} {inp : Input} {rest : List Input} {r : Reject}
    (hp : s.phase = .idle) (hi : s.inputs = inp :: rest) (hd : decode inp = .rejected r) :
    step s = .refused (refusalOf r) := by
  cases inp with
  | txn _ | record _ | request _ | port _ => cases hd
  | runSlot _ | runStore => simp only [step, fetch, hp, hi, hd]

/- ## The invariant on phase, busy, latch and slot memory -/

/-- Accepting a transaction keeps the invariant. -/
theorem accept_inv {s : State} (h : s.Inv) (x : Transaction) : (accept x s).Inv := by
  obtain ⟨-, -, hslot⟩ := h
  exact ⟨by simp, by simp, hslot⟩

/-- In Idle, not busy and with nothing latched, only the slot memory is left to check. -/
theorem inv_of_idle {s : State} (hp : s.phase = .idle) (hb : s.busy = false) (hc : s.cur = none)
    (hm : Memory.wf s.slot) : s.Inv := by
  simpa [State.Inv, hp, hb, hc] using hm

/-- An Idle state of the invariant is not busy and has nothing latched. -/
theorem inv_idle {s : State} (h : s.Inv) (hp : s.phase = .idle) : s.busy = false ∧ s.cur = none := by
  obtain ⟨hbusy, hcur, -⟩ := h
  simpa [hp] using And.intro hbusy hcur

/-- Every instruction that answers keeps the invariant. -/
theorem exec_inv {i : Instr} {s t : State} (h : s.Inv) (he : exec i s = .next t) : t.Inv := by
  have ⟨_, _, hslot⟩ := h
  rcases exec_next he with ⟨_, _, _, -, -, ⟨hp, hb, hc, -⟩, hs⟩ | ⟨hs, hp, -, hctl, -, hm⟩
  · exact inv_of_idle hp hb hc (hs ▸ hslot)
  · obtain ⟨hbusy, hcur⟩ := inv_idle h hs
    rcases hctl with ⟨hb, hc⟩ | ⟨hb, hc⟩
    · exact inv_of_idle hp (hb.trans hbusy) (hc.trans hcur) (hm hslot)
    · exact inv_of_idle hp hb hc (hm hslot)

/-- Settles O10: a step is an idle poll, an acceptance or an instruction, and each keeps the
invariant; taking an input off touches nothing it speaks of. -/
theorem stepKeepsInvariant : Obligations.StepKeepsInvariant := by
  intro s t h hstep
  rcases step_cases hstep with ⟨-, -, rfl⟩ | ⟨x, rest, -, -, rfl⟩ | ⟨_, rest, _, -, -, -, -, he⟩ |
    ⟨_, -, -, he⟩
  · exact h
  · exact accept_inv (s := { s with inputs := rest }) h x
  · exact exec_inv (s := { s with inputs := rest }) h he
  · exact exec_inv h he

/- ## The order of the event stream -/

/-- Reading on from where the first events ended. -/
theorem tracePos_append (es fs : List Event) :
    tracePos (es ++ fs) = fs.foldl traceStep (tracePos es) :=
  List.foldl_append

/-- However a transaction ends, its events lead from the opening pulse back between transactions. -/
theorem foldl_traceStep_ending {x : Transaction} {es : List Event} {l : Label}
    (h : TxnEnding x es l) :
    (es ++ [Event.outcome l, .setBusy false]).foldl traceStep (some .opened) = some .outside := by
  rcases h with ⟨rfl, rfl⟩ | ⟨d, rfl, rfl⟩ | ⟨rfl, _, rfl⟩
  · rfl
  · simp [traceStep]
  · rfl

/-- After the opening pulse, which an accepted transaction has had, the reader stands behind it. -/
theorem tracePos_openingPulse {s : State} (h : s.Inv) (ht : s.TraceInv) :
    tracePos (s.events ++ openingPulse s) = some .opened := by
  have ⟨hbusy, _, _⟩ := h
  rw [tracePos_append, ht]
  cases hp : s.phase with
  | idle => simp [openingPulse, hp, inv_idle h hp, traceStep]
  | busyProcessing => simp [openingPulse, hp, hbusy.mpr hp]

/-- Every instruction that answers keeps the order. -/
theorem exec_traceInv {i : Instr} {s t : State} (h : s.Inv) (ht : s.TraceInv)
    (he : exec i s = .next t) : t.TraceInv := by
  rcases exec_next he with
    ⟨_, es, _, -, hend, ⟨-, hb, -, -, -, hev⟩, -⟩ | ⟨hs, -, -, hctl, ⟨r, hev⟩, -⟩
  · rw [State.TraceInv, hev, hb, List.append_assoc, tracePos_append, tracePos_openingPulse h ht]
    exact foldl_traceStep_ending hend
  · obtain ⟨hbusy, -⟩ := inv_idle h hs
    have hb : t.busy = false := by
      rcases hctl with ⟨hb, -⟩ | ⟨hb, -⟩
      · exact hb.trans hbusy
      · exact hb
    rw [State.TraceInv, hev, hb, tracePos_append, ht, hbusy]
    rfl

/-- Settles O11: accepting puts out the pulse that `busy` then stands for, and every instruction
keeps the order from a state of both invariants. -/
theorem stepKeepsTraceOrder : Obligations.StepKeepsTraceOrder := by
  intro s t h ht hstep
  rcases step_cases hstep with ⟨-, -, rfl⟩ | ⟨x, rest, hp, -, rfl⟩ | ⟨_, rest, _, -, -, -, -, he⟩ |
    ⟨_, -, -, he⟩
  · exact ht
  · have hopen := tracePos_openingPulse h ht
    rw [openingPulse, hp] at hopen
    exact hopen
  · exact exec_traceInv (s := { s with inputs := rest }) h ht he
  · exact exec_traceInv h ht he

/-- Settles O9: at reset the block is Idle with an empty slot memory, and nothing has been put out. -/
theorem invariantsAtReset : Obligations.InvariantsAtReset :=
  ⟨inv_of_idle rfl rfl rfl Memory.wf_nil, rfl⟩

/- ## Progress and acceptance -/

/-- Settles O12: what is latched is admitted, and in Idle the oldest input is accepted, run or, as
one of the two forms of R133, refused. -/
theorem stepAlwaysAnswers : Obligations.StepAlwaysAnswers := by
  rintro s ⟨-, hcur, -⟩
  cases hp : s.phase with
  | busyProcessing =>
    obtain ⟨x, hx⟩ := Option.isSome_iff_exists.mp (hcur.mpr hp)
    rw [step_latched hp hx]
    exact .inl (exec_admitted (.inr ⟨hp, hx⟩))
  | idle =>
    cases hi : s.inputs with
    | nil => exact .inl ⟨s, idlePoll s hp hi⟩
    | cons inp rest =>
      cases inp with
      | txn x => exact .inl ⟨_, step_accept hp hi⟩
      | runSlot n => exact .inr (.inl ⟨rfl, n, rfl, step_rejected hp hi rfl⟩)
      | runStore => exact .inr (.inr ⟨rfl, rfl, step_rejected hp hi rfl⟩)
      | record _ | request _ | port _ =>
        rw [step_run hp hi nofun rfl]
        exact .inl (exec_idle _ hp)

/-- Settles O14 by the fields of `accept`. -/
theorem acceptLatches : Obligations.AcceptLatches := by
  intro s x rest hp hi
  exact ⟨_, step_accept hp hi, rfl, rfl, rfl, rfl, rfl, rfl, ⟨read32_congr rfl, read64_congr rfl⟩,
    readSlot_congr rfl⟩

/-- Settles O15: `step_latched` in BusyProcessing, `step_run` in Idle. -/
theorem stepRunsDecoded : Obligations.StepRunsDecoded :=
  ⟨fun _ _ => step_latched, fun _ _ _ _ => step_run⟩

end Sys2Proof.Machine
end

section
/-! PROOFS. The four bus transactions (43_bus_protocol.md R194 to R197), and how a transaction runs
in two steps, in a queue, under a second one and before a reset. -/

namespace Sys2Proof.Machine

/- ## Entering and completing a transaction: what is read stays, what is put out -/

@[simp] theorem entered_r32 (x : Transaction) (s : State) : (entered x s).r32 = s.r32 :=
  have ⟨h, _⟩ := entered_spec x s; h

@[simp] theorem entered_r64 (x : Transaction) (s : State) : (entered x s).r64 = s.r64 :=
  have ⟨_, h, _⟩ := entered_spec x s; h

@[simp] theorem entered_slot (x : Transaction) (s : State) : (entered x s).slot = s.slot :=
  have ⟨_, _, h, _⟩ := entered_spec x s; h

/-- From an access that puts out `es`, completing ends the transaction (R192, R199). -/
theorem txnEnded_complete {x : Transaction} {s v : State} {es : List Event} (l : Label)
    (he : v.events = (entered x s).events ++ es) (hi : v.inputs = (entered x s).inputs)
    (hd : v.draws = (entered x s).draws) : TxnEnded es l s (complete l v) := by
  obtain ⟨-, -, -, hinputs, hdraws, hevents⟩ := entered_spec x s
  exact ⟨rfl, rfl, rfl, hi.trans hinputs, hd.trans hdraws, by simp [he, hevents]⟩

/-- A transaction whose access leaves the registers alone leaves them alone. -/
theorem sameRegisters_entered {x : Transaction} {s v : State} (l : Label)
    (h32 : v.r32 = (entered x s).r32) (h64 : v.r64 = (entered x s).r64) :
    SameRegisters s (complete l v) :=
  ⟨read32_congr (h32.trans (entered_r32 x s)), read64_congr (h64.trans (entered_r64 x s))⟩

/-- The same for the slots. -/
theorem sameSlots_entered {x : Transaction} {s v : State} (l : Label)
    (h : v.slot = (entered x s).slot) : SameSlots s (complete l v) :=
  readSlot_congr (h.trans (entered_slot x s))

/-- What a write leaves alone, seen from before the transaction was entered. -/
theorem onlyR32_entered {x : Transaction} {s v : State} {i : Nat} (l : Label)
    (h : OnlyR32 i (entered x s) v) : OnlyR32 i s (complete l v) :=
  have ⟨h32, h64, hslot⟩ := h
  ⟨fun j hj => (h32 j hj).trans (read32_congr (entered_r32 x s) j),
    fun j => (h64 j).trans (read64_congr (entered_r64 x s) j),
    fun j => (hslot j).trans (readSlot_congr (entered_slot x s) j)⟩

theorem onlyR64_entered {x : Transaction} {s v : State} {i : Nat} (l : Label)
    (h : OnlyR64 i (entered x s) v) : OnlyR64 i s (complete l v) :=
  have ⟨h64, h32, hslot⟩ := h
  ⟨fun j hj => (h64 j hj).trans (read64_congr (entered_r64 x s) j),
    fun j => (h32 j).trans (read32_congr (entered_r32 x s) j),
    fun j => (hslot j).trans (readSlot_congr (entered_slot x s) j)⟩

/-- An admitted transaction around a write that succeeds completes as written (R194, R195). -/
theorem transact_written {x : Transaction} {s v : State} {w : State → Option State}
    (h : Admitted x s) (hw : w (entered x s) = some v) :
    transact x (fun u => writeOutcome (w u) u) s = .next (complete .writeDone v) := by
  rw [transact_admitted h, hw]
  rfl

/- ## The four rows, for every admitted transaction -/

/-- R194, for the word that the payload assembles to. -/
theorem exec_w32_admitted {s : State} {a : Byte} {w : Word32}
    (h : Admitted ⟨.write, a, bytesLe32 w⟩ s) :
    ∃ t, exec (.w32 a w) s = .next t ∧ read32 t a.toNat = some w ∧ OnlyR32 a.toNat s t ∧
      TxnEnded [] .writeDone s t := by
  have hw := write32_of_lt (entered ⟨.write, a, bytesLe32 w⟩ s) a.toNat w a.isLt
  obtain ⟨-, hread, honly, ⟨-, -, -, hinputs⟩, -, hevents, hdraws⟩ := write32_spec hw
  exact ⟨_, transact_written h hw, hread, onlyR32_entered _ honly,
    txnEnded_complete _ (hevents.trans (List.append_nil _).symm) hinputs hdraws⟩

/-- R195, for the double word that the payload assembles to. -/
theorem exec_w64_admitted {s : State} {a : Byte} {w : Word64}
    (h : Admitted ⟨.write, a, bytesLe64 w⟩ s) :
    ∃ t, exec (.w64 a w) s = .next t ∧ read64 t a.toNat = some w ∧ OnlyR64 a.toNat s t ∧
      TxnEnded [] .writeDone s t := by
  have hw := write64_of_lt (entered ⟨.write, a, bytesLe64 w⟩ s) a.toNat w a.isLt
  obtain ⟨-, hread, honly, ⟨-, -, -, hinputs⟩, -, hevents, hdraws⟩ := write64_spec hw
  exact ⟨_, transact_written h hw, hread, onlyR64_entered _ honly,
    txnEnded_complete _ (hevents.trans (List.append_nil _).symm) hinputs hdraws⟩

/-- R196: the entry is there, since an 8-bit address is in range (R202), and it is sent. -/
theorem exec_rd32_admitted {s : State} {a : Byte} {w : Word32} (h : Admitted ⟨.read, a, []⟩ s)
    (hr : read32 s a.toNat = some w) :
    ∃ t, exec (.rd32 a) s = .next t ∧ SameRegisters s t ∧ SameSlots s t ∧
      TxnEnded [.respond ⟨.read, a, []⟩ (bytesLe32 w)] (.responded (bytesLe32 w)) s t := by
  have hr' : read32 (entered ⟨.read, a, []⟩ s) a.toNat = some w :=
    (read32_congr (entered_r32 _ s) _).trans hr
  have hexec : exec (.rd32 a) s = .next (complete (.responded (bytesLe32 w))
      (emit (.respond ⟨.read, a, []⟩ (bytesLe32 w)) (entered ⟨.read, a, []⟩ s))) := by
    rw [exec, execRd32, transact_admitted h, hr']
  exact ⟨_, hexec, sameRegisters_entered _ rfl rfl, sameSlots_entered _ rfl,
    txnEnded_complete _ rfl rfl rfl⟩

/-- R197, whatever the shape: a violation's access does nothing. -/
theorem exec_violation_admitted {s : State} {d : Direction} {a : Byte} {p : List Byte}
    (h : Admitted ⟨d, a, p⟩ s) :
    ∃ t, exec (.violation d a p) s = .next t ∧ SameRegisters s t ∧ SameSlots s t ∧
      TxnEnded [] (.dropped .unsupportedShape) s t := by
  have hexec : exec (.violation d a p) s =
      .next (complete (.dropped .unsupportedShape) (entered ⟨d, a, p⟩ s)) := by
    rw [exec, execViolation, transact_admitted h]
  exact ⟨_, hexec, sameRegisters_entered _ rfl rfl, sameSlots_entered _ rfl,
    txnEnded_complete _ (List.append_nil _).symm rfl rfl⟩

/-- Settles O17: four payload bytes are those of the word they assemble to. -/
theorem w32WritesRegister : Obligations.W32WritesRegister := by
  intro s a b0 b1 b2 b3 h
  rw [← bytes_le32] at h
  exact exec_w32_admitted h

/-- Settles O18: eight payload bytes are those of the double word they assemble to. -/
theorem w64WritesRegister : Obligations.W64WritesRegister := by
  intro s a b0 b1 b2 b3 b4 b5 b6 b7 h
  rw [← bytes_le64] at h
  exact exec_w64_admitted h

/-- Settles O19: what is sent is the entry that a read of the address returns. -/
theorem rd32Responds : Obligations.Rd32Responds := by
  intro s a h
  have hr := read32_of_lt s a.toNat a.isLt
  obtain ⟨t, ht, hregs, hslots, hend⟩ := exec_rd32_admitted h hr
  exact ⟨_, t, ht, hr, hregs, hslots, hend⟩

/-- Settles O20 by `exec_violation_admitted`. -/
theorem violationDropped : Obligations.ViolationDropped :=
  fun _ _ _ _ _ => exec_violation_admitted

/- ## Every transaction, whatever its shape -/

/-- An admitted transaction ends with some label, after at most responses with the entry its address
names. -/
theorem exec_txn_ended {s : State} {x : Transaction} (h : Admitted x s) :
    ∃ t es l, exec (decodeTxn x) s = .next t ∧ TxnEnded es l s t ∧
      ∀ e ∈ es, e = .respond x (bytesLe32 (s.r32[x.address.toNat]'x.address.isLt)) := by
  obtain ⟨-, he⟩ := decodeTxn_spec x
  cases hd : decodeTxn x with
  | w32 a w =>
    cases he.symm.trans (congrArg encode hd)
    obtain ⟨t, ht, -, -, hend⟩ := exec_w32_admitted h
    exact ⟨t, [], _, ht, hend, nofun⟩
  | w64 a w =>
    cases he.symm.trans (congrArg encode hd)
    obtain ⟨t, ht, -, -, hend⟩ := exec_w64_admitted h
    exact ⟨t, [], _, ht, hend, nofun⟩
  | rd32 a =>
    cases he.symm.trans (congrArg encode hd)
    obtain ⟨t, ht, -, -, hend⟩ := exec_rd32_admitted h (read32_of_lt s a.toNat a.isLt)
    exact ⟨t, _, _, ht, hend, fun e => List.mem_singleton.mp⟩
  | violation d a p =>
    cases he.symm.trans (congrArg encode hd)
    obtain ⟨t, ht, -, -, hend⟩ := exec_violation_admitted h
    exact ⟨t, [], _, ht, hend, nofun⟩
  | _ => cases he.symm.trans (congrArg encode hd)

/-- Whatever an instruction does, it ends in Idle and leaves what is waiting. -/
theorem exec_ends_idle {i : Instr} {s t : State} (h : exec i s = .next t) :
    t.phase = .idle ∧ t.inputs = s.inputs := by
  rcases exec_next h with ⟨_, _, _, -, -, ⟨hp, -, -, hi, -⟩, -⟩ | ⟨-, hp, hi, -⟩
  · exact ⟨hp, hi⟩
  · exact ⟨hp, hi⟩

/-- Settles O21: the step runs the latched transaction, which ends as `exec_txn_ended` says, and
no transaction touches a slot. -/
theorem acceptedCompletes : Obligations.AcceptedCompletes := by
  intro s x hp hc
  rw [step_latched hp hc]
  obtain ⟨t, es, l, ht, ⟨hphase, hbusy, hcur, hinputs, hdraws, hevents⟩, hes⟩ :=
    exec_txn_ended (.inr ⟨hp, hc⟩)
  have hslot : t.slot = s.slot := by
    rcases exec_next ht with ⟨_, _, _, -, -, -, hslot⟩ | ⟨hidle, -⟩
    · exact hslot
    · rw [hp] at hidle; cases hidle
  have hopen : openingPulse s = [] := by rw [openingPulse, hp]
  rw [hopen, List.append_nil] at hevents
  exact ⟨t, es, l, ht, hphase, hbusy, hcur, hinputs, hslot, hdraws, hevents, hes⟩

/- ## One transaction in two steps, and a queue of them -/

/-- Settles O22: the first step accepts, and completing what was accepted is running it whole. -/
theorem twoStepsAreTheFusedOne : Obligations.TwoStepsAreTheFusedOne := by
  intro s x rest hp hi
  have hp' : ({ s with inputs := rest } : State).phase = .idle := hp
  obtain ⟨v, hv⟩ := exec_admitted (x := x) (.inl hp')
  refine ⟨_, v, step_accept hp hi, ?_, hv⟩
  rw [step_latched (accept_phase _ _) (accept_cur _ _), exec_accept hp', hv]

/-- A run whose first step answers goes on from there. -/
theorem run_succ_of_next (M : Host.Core) {s u : M.State} (n : Nat) (h : M.step s = .next u) :
    M.run (n + 1) s = M.run n u := by
  rw [Host.Core.run, h]

/-- Settles O23, by induction on the queue: two steps run its first transaction whole, which ends in
Idle with the others waiting, and running it does not look at what is waiting. -/
theorem queuedTransactionsInOrder : Obligations.QueuedTransactionsInOrder := by
  intro xs
  induction xs with
  | nil => exact fun s rest hp => ⟨_, rfl, rfl, hp, rfl⟩
  | cons x xs ih =>
    intro s rest hp
    obtain ⟨u, v, hu, hv, hx⟩ := twoStepsAreTheFusedOne
      { s with inputs := .txn x :: (xs.map Input.txn ++ rest) } x _ hp rfl
    obtain ⟨hidle, hinputs : v.inputs = xs.map Input.txn ++ rest⟩ := exec_ends_idle hx
    have hx' : exec (decodeTxn x) { s with inputs := rest } = .next { v with inputs := rest } :=
      exec_txn_inputs (s := { s with inputs := xs.map Input.txn ++ rest }) rest (.inl hp) hx
    obtain ⟨t, hrun, hwhole, ht⟩ := ih v rest hidle
    have hv' : { v with inputs := xs.map Input.txn ++ rest } = v := by rw [← hinputs]
    refine ⟨t, ?_, ?_, ht⟩
    · calc Host.Core.run core (2 * xs.length + 1 + 1) _
        _ = Host.Core.run core (2 * xs.length + 1) u := run_succ_of_next core _ hu
        _ = Host.Core.run core (2 * xs.length) v := run_succ_of_next core _ hv
        _ = .next t := by rw [← hv', hrun]
    · simp only [runTransactions, hx', hwhole]

/- ## What a block in BusyProcessing refuses, and a reset that waits -/

/-- Settles O24: the instruction is `transact` of that transaction. -/
theorem overlappingRefused : Obligations.OverlappingRefused := by
  intro s x h
  obtain ⟨k, hk⟩ := exec_transact x
  rw [hk, transact_overlap h]

/-- Settles O25: what no transaction encodes runs under `atPort`. -/
theorem localPortOnlyInIdle : Obligations.LocalPortOnlyInIdle := by
  intro s inp i hp hx hd
  obtain ⟨k, hk, -⟩ := exec_atPort i (encode_ne_txn hd hx)
  rw [hk, atPort_busy hp]

/-- After the reset update the block has the values of R21. -/
theorem blockCleared_resetBlock (s : State) : BlockCleared (resetBlock s) :=
  ⟨fun _ hi => (read32_congr rfl _).trans (read32_clearRegisters s hi),
    fun _ hi => (read64_congr rfl _).trans (read64_clearRegisters s hi),
    fun _ hi => if_pos hi, rfl, rfl, rfl⟩

/-- Settles O8: startup is the reset update of itself, and the reset event answers that update. -/
theorem startupAndReset : Obligations.StartupAndReset :=
  ⟨blockCleared_resetBlock State.reset,
    fun s hp => ⟨_, exec_reset hp, blockCleared_resetBlock s, rfl, rfl, rfl⟩⟩

/-- Settles O26: the latched transaction completes first and leaves the reset waiting in an Idle
block, whose next step runs it. -/
theorem resetWaitsForTransaction : Obligations.ResetWaitsForTransaction := by
  intro s x rest hp hc hi
  obtain ⟨u, hu⟩ := exec_admitted (x := x) (.inr ⟨hp, hc⟩)
  obtain ⟨hidle, hinputs⟩ := exec_ends_idle hu
  have hreset : step u = exec .reset { u with inputs := rest } :=
    step_run hidle (hinputs.trans hi) nofun rfl
  exact ⟨u, _, (step_latched hp hc).trans hu, hu, hinputs, hreset.trans (exec_reset hidle),
    blockCleared_resetBlock { u with inputs := rest }, rfl⟩

end Sys2Proof.Machine
end

section
/-! PROOFS. The record decoder and the Opcode Store at the local port (41_opcode_store.md), and the
register round trip (40_register_file.md R106). -/

namespace Sys2Proof.Machine

/- ## Records at the decoder -/

/-- An instruction that only returns a value in Idle changes nothing else. -/
theorem returnedOnly_of_atPort {i : Instr} {s : State} {r : PortResult} (hs : s.phase = .idle)
    (h : exec i s = atPort (answer r) s) : ∃ t, exec i s = .next t ∧ ReturnedOnly r s t :=
  ⟨_, by rw [h, atPort_idle hs, (answer_only r s).1], (answer_only r s).2⟩

/-- A record of a recognized kind decodes to that kind and its operands (R125 to R130). -/
theorem decodedFields_kindCode (k : Kind) (x y z : Byte) :
    decodedFields ⟨kindCode k, x, y, z⟩ = .decoded k x y z := by
  rw [decodedFields, effKind_kindCode]

/-- A record of any other kind byte decodes to Nop (R131). -/
theorem decodedFields_nopEquiv {k : Byte} (h : 6 ≤ k.toNat) (x y z : Byte) :
    decodedFields ⟨k, x, y, z⟩ = .decoded .nop x y z := by
  rw [decodedFields, effKind_of_ge h]

/-- Settles O27: each row answers the decoder's fields and nothing else. -/
theorem recordKindsDecode : Obligations.RecordKindsDecode := by
  intro s x y z hs
  simp only [← decodedFields_kindCode]
  refine ⟨returnedOnly_of_atPort hs rfl, returnedOnly_of_atPort hs rfl,
    returnedOnly_of_atPort hs rfl, returnedOnly_of_atPort hs rfl, returnedOnly_of_atPort hs rfl,
    returnedOnly_of_atPort hs rfl, fun k hk => ?_⟩
  rw [decodedFields_kindCode, ← decodedFields_nopEquiv hk]
  exact returnedOnly_of_atPort hs rfl

/- ## A register written and read -/

/-- Settles O31: the write leaves an Idle state that reads the value at that index. -/
theorem registerRoundTrip : Obligations.RegisterRoundTrip := by
  intro s i v d hs hi
  constructor
  · have h := write32Port s i v hs
    rw [if_pos hi] at h
    obtain ⟨t, hw, hread, -, ⟨⟨hphase, -⟩, -⟩, -⟩ := h
    rw [← hread]
    exact ⟨t, _, hw, exec_read32 (hphase.trans hs) i, (answer_only _ t).2⟩
  · have h := write64Port s i d hs
    rw [if_pos hi] at h
    obtain ⟨t, hw, hread, -, ⟨⟨hphase, -⟩, -⟩, -⟩ := h
    rw [← hread]
    exact ⟨t, _, hw, exec_read64 (hphase.trans hs) i, (answer_only _ t).2⟩

/- ## The Opcode Store's rows in Idle (`exec_osClear` stands above) -/

theorem exec_osWrite {s : State} (h : s.phase = .idle) (i : Nat) (r : Record) :
    exec (.osWrite i r) s = answerWrite (writeSlot i r s) s := atPort_idle h _

theorem exec_osRead {s : State} (h : s.phase = .idle) (i : Nat) :
    exec (.osRead i) s = answer (.record (readSlot s i)) s := atPort_idle h _

/-- SPEC LEMMA of `writeSlot` on a canonical slot memory (R120). -/
theorem writeSlot_spec {s t : State} {i : Nat} {r : Record} (hm : Memory.wf s.slot)
    (h : writeSlot i r s = some t) :
    i < 1024 ∧ readSlot t i = some r ∧ OnlySlot i s t ∧ SameControl s t ∧ t.events = s.events ∧
      t.draws = s.draws := by
  obtain ⟨hkeys, -⟩ := hm
  by_cases hi : i < 1024
  · rw [writeSlot_of_lt s i r hi, Option.some.injEq] at h
    subst h
    refine ⟨hi, ?_, ⟨fun j hj => ?_, read32_congr rfl, read64_congr rfl⟩, ⟨rfl, rfl, rfl, rfl⟩,
      rfl, rfl⟩
    · simp [readSlot, hi, Memory.read_write_self _ hkeys]
    · simp [readSlot, Memory.read_write_other _ i j r hj]
  · rw [writeSlot_of_ge s i r (by omega)] at h; cases h

/-- Settles O34: below 1024 the write succeeds and `writeSlot_spec` is its effect; from 1024 on it
is rejected and only the answer is put out. -/
theorem slotWrite : Obligations.SlotWrite := by
  intro s i r hs hm
  rw [exec_osWrite hs]
  split
  next hi =>
    have hw := writeSlot_of_lt s i r hi
    obtain ⟨-, hread, honly, hctl, hev, hdraws⟩ := writeSlot_spec hm hw
    rw [hw]
    exact ⟨_, rfl, hread, honly, returned_emit _ hctl hev, hdraws⟩
  next hi =>
    rw [writeSlot_of_ge s i r (by omega)]
    exact ⟨_, answer_only _ s⟩

/-- Settles O35: os.read returns what `readSlot` finds. -/
theorem slotRead : Obligations.SlotRead := by
  intro s i hs
  exact ⟨_, exec_osRead hs i, (answer_only _ s).2⟩

/-- Settles O36: the write leaves an Idle state that reads the record at its slot and every other
slot as before. -/
theorem slotRoundTrip : Obligations.SlotRoundTrip := by
  intro s i j r hs hm hi _
  have h := slotWrite s i r hs hm
  rw [if_pos hi] at h
  obtain ⟨t, hw, hread, ⟨hother, -⟩, ⟨⟨hphase, -⟩, -⟩, -⟩ := h
  have hj : (if j = i then some r else readSlot s j) = readSlot t j := by
    split
    next hji => rw [hji, hread]
    next hji => exact (hother j hji).symm
  rw [hj]
  exact ⟨t, _, hw, exec_osRead (hphase.trans hs) j, (answer_only _ t).2⟩

/-- Settles O37: an unlisted slot reads the cleared record, and clearing touches nothing else. -/
theorem slotClear : Obligations.SlotClear := by
  intro s hs
  exact ⟨_, exec_osClear hs, fun i hi => if_pos hi, ⟨read32_congr rfl, read64_congr rfl⟩,
    returned_emit _ ⟨rfl, rfl, rfl, rfl⟩ rfl, rfl⟩

end Sys2Proof.Machine
end

section
/-! PROOFS. The dispatcher (42_operation_dispatcher.md): what its templates answer, the value each
operation writes, and the control multiplexer. -/

namespace Sys2Proof.Machine

/- ## Patterns: draws and reinterpretation (R160, R161, R168) -/

/-- The fraction of a NaN, less one, is one that a draw ranges over. -/
theorem exists_draw_of_isNaN {n p : Nat} (hn : p + 3 ≤ n) (w : BitVec n) (h : IsNaN n p w) :
    ∃ (neg : Bool) (f : Fin (2 ^ p - 1)),
      w = BitVec.ofNat n ((formatOf n p).pack (neg, f.val + 1) .nan) := by
  have ⟨_, hfrac⟩ := h
  have hlt : fracField n p w < 2 ^ p := Nat.mod_lt _ (by positivity)
  refine ⟨w.msb, ⟨fracField n p w - 1, by omega⟩, ?_⟩
  rw [Nat.sub_add_cancel (Nat.one_le_iff_ne_zero.mpr hfrac)]
  exact nan_eq_pack hn w h

/-- Settles O53: a draw's fraction is one of a NaN, and a NaN's own sign and fraction are a draw's. -/
theorem nanDraws : Obligations.NanDraws :=
  ⟨fun n => pack_nan (p := 23) (by norm_num) _ (nanDraw32_bounds n).1 (nanDraw32_bounds n).2,
    fun n => pack_nan (p := 52) (by norm_num) _ (nanDraw64_bounds n).1 (nanDraw64_bounds n).2,
    exists_draw_of_isNaN (p := 23) (by norm_num), exists_draw_of_isNaN (p := 52) (by norm_num)⟩

/-- Settles O54: packing what was unpacked, at both widths. -/
theorem reinterpretationInverse : Obligations.ReinterpretationInverse :=
  ⟨fun _ w hw => pack_unpack (p := 23) (by norm_num) w hw _,
    fun _ w hw => pack_unpack (p := 52) (by norm_num) w hw _⟩

/- ## What the templates answer (R141 to R143, R157 to R159) -/

/-- An instruction that is the template `bin32` of `F` answers as R157 to R159 say, if what it packs,
whatever the draw, meets the row's table. -/
theorem answers32_of_bin32 {i : Instr} {s : State} {F : Datum → Datum → Datum} {d x y : Nat}
    {spec : Word32 → Word32 → Word32 → Prop} (hi : exec i s = bin32 F d x y s)
    (hspec : ∀ nf : Bool × Nat, nf.2 ≠ 0 → nf.2 < 2 ^ 23 → ∀ a b : Word32,
      spec a b (BitVec.ofNat 32 (binary32.pack nf (F (f32 a) (f32 b))))) :
    Answers32 i s d x y spec := by
  rw [Answers32, hi]
  obtain ⟨hnan, hfrac⟩ := nanDraw32_bounds s.draws
  obtain ⟨hok, hsrc⟩ := bin32_spec F d x y s
  refine ⟨fun hx hy hd => ?_, fun h => ⟨_, (hsrc h).trans rfl, (answer_only _ s).2⟩,
    fun hx hy hd => ?_⟩
  · obtain ⟨a, b, ha, hb, hbin⟩ := hok hx hy
    obtain ⟨t, ht, hread, honly, hret, -⟩ := (writeBack32_spec d _ s).1 hd
    exact ⟨a, b, _, t, hbin.trans ht, ha, hb, hread, hspec _ hnan hfrac a b, honly, hret⟩
  · obtain ⟨a, b, -, -, hbin⟩ := hok hx hy
    exact ⟨_, hbin.trans ((writeBack32_spec d _ s).2 hd), (answer_only _ s).2⟩

/-- The same for `bin64`. -/
theorem answers64_of_bin64 {i : Instr} {s : State} {F : Datum → Datum → Datum} {d x y : Nat}
    {spec : Word64 → Word64 → Word64 → Prop} (hi : exec i s = bin64 F d x y s)
    (hspec : ∀ nf : Bool × Nat, nf.2 ≠ 0 → nf.2 < 2 ^ 52 → ∀ a b : Word64,
      spec a b (BitVec.ofNat 64 (binary64.pack nf (F (f64 a) (f64 b))))) :
    Answers64 i s d x y spec := by
  rw [Answers64, hi]
  obtain ⟨hnan, hfrac⟩ := nanDraw64_bounds s.draws
  obtain ⟨hok, hsrc⟩ := bin64_spec F d x y s
  refine ⟨fun hx hy hd => ?_, fun h => ⟨_, (hsrc h).trans rfl, (answer_only _ s).2⟩,
    fun hx hy hd => ?_⟩
  · obtain ⟨a, b, ha, hb, hbin⟩ := hok hx hy
    obtain ⟨t, ht, hread, honly, hret, -⟩ := (writeBack64_spec d _ s).1 hd
    exact ⟨a, b, _, t, hbin.trans ht, ha, hb, hread, hspec _ hnan hfrac a b, honly, hret⟩
  · obtain ⟨a, b, -, -, hbin⟩ := hok hx hy
    exact ⟨_, hbin.trans ((writeBack64_spec d _ s).2 hd), (answer_only _ s).2⟩

/-- The same for `un64`, whose function is given the draw index. -/
theorem answersUnary_of_un64 {i : Instr} {s : State} {G : Nat → Word64 → Word64} {d x : Nat}
    {spec : Word64 → Word64 → Prop} (hi : exec i s = un64 G d x s)
    (hspec : ∀ n a, spec a (G n a)) : AnswersUnary i s d x spec := by
  rw [AnswersUnary, hi]
  obtain ⟨hok, hsrc⟩ := un64_spec G d x s
  refine ⟨fun hx hd => ?_, fun h => ⟨_, (hsrc h).trans rfl, (answer_only _ s).2⟩, fun hx hd => ?_⟩
  · obtain ⟨a, ha, hun⟩ := hok hx
    obtain ⟨t, ht, hread, honly, hret, -⟩ := (writeBack64_spec d _ s).1 hd
    exact ⟨a, _, t, hun.trans ht, ha, hread, hspec _ a, honly, hret⟩
  · obtain ⟨a, -, hun⟩ := hok hx
    exact ⟨_, hun.trans ((writeBack64_spec d _ s).2 hd), (answer_only _ s).2⟩

/- ## The twelve operations -/

/-- Settles O39: R163 at 32 bits. -/
theorem add32Answers : Obligations.Add32Answers := fun _ _ _ _ hs =>
  answers32_of_bin32 (atPort_idle hs _) (add_spec (p := 23) (by norm_num) (by norm_num))

/-- Settles O43: R163 at 64 bits. -/
theorem add64Answers : Obligations.Add64Answers := fun _ _ _ _ hs =>
  answers64_of_bin64 (atPort_idle hs _) (add_spec (p := 52) (by norm_num) (by norm_num))

/-- Settles O40: R163 on the subtrahend's pattern with its sign flipped. -/
theorem sub32Answers : Obligations.Sub32Answers := by
  intro s d x y hs
  refine answers32_of_bin32 (atPort_idle hs _) fun nf hnan hfrac a b => ?_
  have hflip : f32 (flipSign 32 b) = (f32 b).negate := unpack_flip (p := 23) (by norm_num) b
  rw [FloatFormat.sub, ← hflip]
  exact add_spec (p := 23) (by norm_num) (by norm_num) nf hnan hfrac a (flipSign 32 b)

/-- Settles O44: as for `sub32Answers`, at 64 bits. -/
theorem sub64Answers : Obligations.Sub64Answers := by
  intro s d x y hs
  refine answers64_of_bin64 (atPort_idle hs _) fun nf hnan hfrac a b => ?_
  have hflip : f64 (flipSign 64 b) = (f64 b).negate := unpack_flip (p := 52) (by norm_num) b
  rw [FloatFormat.sub, ← hflip]
  exact add_spec (p := 52) (by norm_num) (by norm_num) nf hnan hfrac a (flipSign 64 b)

/-- Settles O41: R164 at 32 bits. -/
theorem mul32Answers : Obligations.Mul32Answers := fun _ _ _ _ hs =>
  answers32_of_bin32 (atPort_idle hs _) (mul_spec (p := 23) (by norm_num) (by norm_num))

/-- Settles O45: R164 at 64 bits. -/
theorem mul64Answers : Obligations.Mul64Answers := fun _ _ _ _ hs =>
  answers64_of_bin64 (atPort_idle hs _) (mul_spec (p := 52) (by norm_num) (by norm_num))

/-- Settles O42: R165 at 32 bits. -/
theorem div32Answers : Obligations.Div32Answers := fun _ _ _ _ hs =>
  answers32_of_bin32 (atPort_idle hs _) (div_spec (p := 23) (by norm_num) (by norm_num))

/-- Settles O46: R165 at 64 bits. -/
theorem div64Answers : Obligations.Div64Answers := fun _ _ _ _ hs =>
  answers64_of_bin64 (atPort_idle hs _) (div_spec (p := 52) (by norm_num) (by norm_num))

/-- Settles O47: R166 at 64 bits. -/
theorem squareRoot64Answers : Obligations.SquareRoot64Answers := by
  intro s d x y hs
  refine answersUnary_of_un64 (atPort_idle hs _) fun n a => ?_
  obtain ⟨hnan, hfrac⟩ := nanDraw64_bounds n
  exact sqrt_spec (p := 52) (by norm_num) (by norm_num) (by decide) _ hnan hfrac a

/-- Settles O48: one template, each with its own open function. -/
theorem transcendentalsAnswer : Obligations.TranscendentalsAnswer := by
  intro s d x y hs
  exact ⟨answersUnary_of_un64 (atPort_idle hs _) (transcendental_spec _),
    answersUnary_of_un64 (atPort_idle hs _) (transcendental_spec _),
    answersUnary_of_un64 (atPort_idle hs _) (transcendental_spec _)⟩

/- ## The optional hypotheses on a transcendental (R170 a to e) -/

theorem FunctionSpec.isNaN {G : Word64 → Word64} {a r : Word64} (h : FunctionSpec G a r)
    (hn : IsNaN 64 52 (G a)) : IsNaN 64 52 r := by
  rwa [FunctionSpec, if_pos hn] at h

theorem FunctionSpec.eq {G : Word64 → Word64} {a r : Word64} (h : FunctionSpec G a r)
    (hn : ¬ IsNaN 64 52 (G a)) : r = G a := by
  rwa [FunctionSpec, if_neg hn] at h

/-- Where `G a` is finite it is what is written. -/
theorem FunctionSpec.eq_of_finite {G : Word64 → Word64} {a r : Word64} (h : FunctionSpec G a r)
    (hf : IsFinite 64 52 (G a)) : r = G a :=
  h.eq fun ⟨htop, _⟩ => hf htop

/-- Settles O49: the entry written meets `FunctionSpec`, so it is a NaN where `G` gives one and the
value of `G` wherever that is finite, which (c), (d) and (e) each say it is. -/
theorem optionalHypotheses : Obligations.OptionalHypotheses := by
  intro G s d x a hd ha
  have hx : x < 256 := by
    by_contra hx
    rw [read64_of_ge s x (by omega)] at ha
    cases ha
  obtain ⟨b, hb, hun⟩ := (un64_spec (transcendental G) d x s).1 hx
  obtain rfl : a = b := Option.some.inj (ha.symm.trans hb)
  obtain ⟨t, ht, hread, -⟩ := (writeBack64_spec d (transcendental G s.draws a) s).1 hd
  have hr := transcendental_spec G s.draws a
  refine ⟨_, t, hun.trans ht, hread, fun h hn => hr.isNaN (h a hn), fun h hn => hr.isNaN (h a hn),
    fun h hz => ?_, fun h hz => ?_, fun h hf => ?_, fun g k h hf => ?_⟩
  · have hGa := h a hz
    rw [hr.eq fun ⟨_, hfrac⟩ => hfrac (by rw [hGa]; exact hz.2), hGa]
  · have hGa := h a hz
    rw [hr.eq_of_finite (by rw [hGa]; decide), hGa]
  · obtain ⟨hfin, hbound⟩ := h a hf
    rw [hr.eq_of_finite hfin]
    exact ⟨hfin, hbound⟩
  · obtain ⟨hfin, hclose⟩ := h a hf
    rw [hr.eq_of_finite hfin]
    exact hclose

/- ## The control multiplexer (R140, R156, R157) -/

/-- R140, one case for each row of the code table. -/
theorem exec_execute_eq (r : Request) (s : State) :
    exec (.execute r.op r.dst r.src0 r.src1) s = exec (decodeRequest r) s := by
  change atPort (dispatch r) s = _
  unfold dispatch decodeRequest
  cases opOfCode r.op with
  | none => rfl
  | some o => cases o <;> rfl

/-- Settles O52: `exec_execute_eq`, and every instruction answers in Idle. -/
theorem executeIsTheMultiplexer : Obligations.ExecuteIsTheMultiplexer := by
  refine ⟨fun s r => exec_execute_eq r s, fun s r hs => ?_⟩
  obtain ⟨t, ht⟩ := exec_idle (decodeRequest r) hs
  exact ⟨t, (exec_execute_eq r s).trans ht, ht⟩

/-- Settles O50: both forms only answer, `execute` because its identifier names no operation. -/
theorem unsupportedFails : Obligations.UnsupportedFails := by
  intro s c d x y hs hc
  have hexec : exec (.execute c d x y) s = exec (.unsupported c d x y) s := by
    rw [← decodeRequest_unsupported hc]
    exact exec_execute_eq ⟨c, d, x, y⟩ s
  exact ⟨returnedOnly_of_atPort hs rfl, returnedOnly_of_atPort hs hexec⟩

/-- R157 from the sources on: which status `i` answers, `bad` being that a source it reads is out of
range. -/
def AnswersInOrder (bad : Prop) [Decidable bad] (i : Instr) (s : State) (d : Nat) : Prop :=
  ∃ t, exec i s = .next t ∧
    if bad then ReturnedOnly (.status .srcRange) s t
    else if 256 ≤ d then ReturnedOnly (.status .dstRange) s t
    else Returned (.status .ok) s t

theorem Answers32.inOrder {i : Instr} {s : State} {d x y : Nat}
    {spec : Word32 → Word32 → Word32 → Prop} (h : Answers32 i s d x y spec) :
    AnswersInOrder (256 ≤ x ∨ 256 ≤ y) i s d := by
  obtain ⟨hok, hsrc, hdst⟩ := h
  unfold AnswersInOrder
  split_ifs with hbad hd
  · exact hsrc hbad
  · exact hdst (by omega) (by omega) hd
  · obtain ⟨_, _, _, t, ht, -, -, -, -, -, hret⟩ := hok (by omega) (by omega) (by omega)
    exact ⟨t, ht, hret⟩

theorem Answers64.inOrder {i : Instr} {s : State} {d x y : Nat}
    {spec : Word64 → Word64 → Word64 → Prop} (h : Answers64 i s d x y spec) :
    AnswersInOrder (256 ≤ x ∨ 256 ≤ y) i s d := by
  obtain ⟨hok, hsrc, hdst⟩ := h
  unfold AnswersInOrder
  split_ifs with hbad hd
  · exact hsrc hbad
  · exact hdst (by omega) (by omega) hd
  · obtain ⟨_, _, _, t, ht, -, -, -, -, -, hret⟩ := hok (by omega) (by omega) (by omega)
    exact ⟨t, ht, hret⟩

theorem AnswersUnary.inOrder {i : Instr} {s : State} {d x : Nat} {spec : Word64 → Word64 → Prop}
    (h : AnswersUnary i s d x spec) : AnswersInOrder (256 ≤ x) i s d := by
  obtain ⟨hok, hsrc, hdst⟩ := h
  unfold AnswersInOrder
  split_ifs with hbad hd
  · exact hsrc hbad
  · exact hdst (by omega) hd
  · obtain ⟨_, _, t, ht, -, -, -, -, hret⟩ := hok (by omega) (by omega)
    exact ⟨t, ht, hret⟩

/-- `execute` answers in that order where the operation of its identifier does. -/
theorem AnswersInOrder.execute {bad : Prop} [Decidable bad] {c : Byte} {s : State} {d x y : Nat}
    (h : AnswersInOrder bad (decodeRequest ⟨c, d, x, y⟩) s d) :
    AnswersInOrder bad (.execute c d x y) s d := by
  rwa [AnswersInOrder, ← exec_execute_eq] at h

/-- Every recognized operation answers in R157's order; its code tells whether it reads source1. -/
theorem execute_opCode_answersInOrder (o : Op) {s : State} (hs : s.phase = .idle) (d x y : Nat) :
    AnswersInOrder (256 ≤ x ∨ ((opCode o).toNat < 8 ∧ 256 ≤ y)) (.execute (opCode o) d x y) s d := by
  obtain ⟨hsin, hcos, htan⟩ := transcendentalsAnswer s d x y hs
  apply AnswersInOrder.execute
  rw [decodeRequest, opOfCode_opCode]
  cases o with
  | add32 => simpa [opCode] using (add32Answers s d x y hs).inOrder
  | sub32 => simpa [opCode] using (sub32Answers s d x y hs).inOrder
  | mul32 => simpa [opCode] using (mul32Answers s d x y hs).inOrder
  | div32 => simpa [opCode] using (div32Answers s d x y hs).inOrder
  | add64 => simpa [opCode] using (add64Answers s d x y hs).inOrder
  | sub64 => simpa [opCode] using (sub64Answers s d x y hs).inOrder
  | mul64 => simpa [opCode] using (mul64Answers s d x y hs).inOrder
  | div64 => simpa [opCode] using (div64Answers s d x y hs).inOrder
  | sine64 => simpa [opCode] using hsin.inOrder
  | cosine64 => simpa [opCode] using hcos.inOrder
  | tangent64 => simpa [opCode] using htan.inOrder
  | squareRoot64 => simpa [opCode] using (squareRoot64Answers s d x y hs).inOrder

/-- Settles O51: an identifier from 12 on is unsupported, and any other is an operation's code. -/
theorem executeCheckOrder : Obligations.ExecuteCheckOrder := by
  intro s c d x y hs
  cases hc : opOfCode c with
  | none =>
    have h12 := (opOfCode_eq_none_iff c).mp hc
    simp only [if_pos h12]
    exact (unsupportedFails s c d x y hs h12).2
  | some o =>
    have h12 : ¬ 12 ≤ c.toNat := fun h => by
      rw [(opOfCode_eq_none_iff c).mpr h] at hc; cases hc
    obtain rfl := eq_opCode hc
    simp only [if_neg h12]
    exact execute_opCode_answersInOrder o hs d x y

end Sys2Proof.Machine
end

section
/-! PROOFS. What an instruction may touch (40_register_file.md R105; 41_opcode_store.md R123, R133):
the register entries it writes, and the slots it never looks at. -/

namespace Sys2Proof.Machine

/- ## Slots: an instruction that is blind to them -/

/-- The same block with other contents in the Opcode Store. -/
def replaceSlots (m : Memory) (s : State) : State := { s with slot := m }

/-- The outcome with its next state, if there is one, sent through `f`. -/
def mapNext (f : State → State) :
    Host.Outcome State Fault Refusal → Host.Outcome State Fault Refusal
  | .next s => .next (f s)
  | .fault r => .fault r
  | .refused r => .refused r

/-- `k` neither looks at the slots nor touches them: with other contents it does the same beside
them. -/
def SlotBlind (k : State → Host.Outcome State Fault Refusal) : Prop :=
  ∀ m s, k (replaceSlots m s) = mapNext (replaceSlots m) (k s)

/-- What is blind to the slots leaves them as they are: put back what stands there. -/
theorem SlotBlind.slot_eq {k : State → Host.Outcome State Fault Refusal} (hk : SlotBlind k)
    {s t : State} (h : k s = .next t) : t.slot = s.slot := by
  have hput : k s = mapNext (replaceSlots s.slot) (k s) := hk s.slot s
  rw [h] at hput
  have ht : t = replaceSlots s.slot t := Host.Outcome.next.inj hput
  rw [ht]
  rfl

theorem slotBlind_answer (r : PortResult) : SlotBlind (answer r) := fun _ _ => rfl

theorem slotBlind_atPort {k : State → Host.Outcome State Fault Refusal} (hk : SlotBlind k) :
    SlotBlind (atPort k) := by
  intro m s
  cases hp : s.phase with
  | idle => rw [atPort_idle hp, atPort_idle (s := replaceSlots m s) hp, hk]
  | busyProcessing => rw [atPort_busy hp, atPort_busy (s := replaceSlots m s) hp]; rfl

/-- Accepting a transaction does not look at the slots. -/
theorem entered_replaceSlots (x : Transaction) (m : Memory) (s : State) :
    entered x (replaceSlots m s) = replaceSlots m (entered x s) := by
  obtain ⟨_, _, _, p, _, _, _, _, _⟩ := s
  cases p <;> rfl

theorem slotBlind_transact {x : Transaction} {k : State → State × Label}
    (hk : ∀ m u, k (replaceSlots m u) = (replaceSlots m (k u).1, (k u).2)) :
    SlotBlind (transact x k) := by
  intro m s
  by_cases h : Admitted x s
  · rw [transact_admitted h, transact_admitted (s := replaceSlots m s) h, entered_replaceSlots, hk]
    rfl
  · rw [transact_overlap h, transact_overlap (s := replaceSlots m s) h]
    rfl

/-- A register write goes through beside other slots exactly if it does. -/
theorem write32_replaceSlots (m : Memory) (i : Nat) (v : Word32) (s : State) :
    write32 i v (replaceSlots m s) = (write32 i v s).map (replaceSlots m) := by
  unfold write32
  split <;> rfl

theorem write64_replaceSlots (m : Memory) (i : Nat) (v : Word64) (s : State) :
    write64 i v (replaceSlots m s) = (write64 i v s).map (replaceSlots m) := by
  unfold write64
  split <;> rfl

theorem writeOutcome_replaceSlots (m : Memory) (w : Option State) (s : State) :
    writeOutcome (w.map (replaceSlots m)) (replaceSlots m s) =
      (replaceSlots m (writeOutcome w s).1, (writeOutcome w s).2) := by
  cases w <;> rfl

theorem writeBack_replaceSlots (m : Memory) (w : Option State) (s : State) :
    writeBack (w.map (replaceSlots m)) (replaceSlots m s) =
      mapNext (replaceSlots m) (writeBack w s) := by
  cases w <;> rfl

theorem answerWrite_replaceSlots (m : Memory) (w : Option State) (s : State) :
    answerWrite (w.map (replaceSlots m)) (replaceSlots m s) =
      mapNext (replaceSlots m) (answerWrite w s) := by
  cases w <;> rfl

theorem slotBlind_bin32 (F : Datum → Datum → Datum) (d x y : Nat) : SlotBlind (bin32 F d x y) := by
  intro m s
  have hread : ∀ i, read32 (replaceSlots m s) i = read32 s i := read32_congr rfl
  unfold bin32
  rw [hread, hread]
  split
  · rw [write32_replaceSlots]; exact writeBack_replaceSlots m _ s
  · rfl

theorem slotBlind_bin64 (F : Datum → Datum → Datum) (d x y : Nat) : SlotBlind (bin64 F d x y) := by
  intro m s
  have hread : ∀ i, read64 (replaceSlots m s) i = read64 s i := read64_congr rfl
  unfold bin64
  rw [hread, hread]
  split
  · rw [write64_replaceSlots]; exact writeBack_replaceSlots m _ s
  · rfl

theorem slotBlind_un64 (G : Nat → Word64 → Word64) (d x : Nat) : SlotBlind (un64 G d x) := by
  intro m s
  have hread : ∀ i, read64 (replaceSlots m s) i = read64 s i := read64_congr rfl
  unfold un64
  rw [hread]
  split
  · rw [write64_replaceSlots]; exact writeBack_replaceSlots m _ s
  · rfl

theorem slotBlind_dispatch (r : Request) : SlotBlind (dispatch r) := by
  unfold dispatch
  cases opOfCode r.op with
  | none => exact slotBlind_answer _
  | some o =>
    cases o with
    | add32 | sub32 | mul32 | div32 => exact slotBlind_bin32 _ _ _ _
    | add64 | sub64 | mul64 | div64 => exact slotBlind_bin64 _ _ _ _
    | sine64 | cosine64 | tangent64 | squareRoot64 => exact slotBlind_un64 _ _ _

/-- Every instruction but the three of the Opcode Store and the reset is blind to the slots (R12,
R123, R198). -/
theorem slotBlind_exec {i : Instr} (hw : (mayWrite i).slot = false) (hr : ∀ n, i ≠ .osRead n) :
    SlotBlind (exec i) := by
  cases i with
  | w32 a v =>
    change SlotBlind fun s => execW32 a v s
    unfold execW32
    refine slotBlind_transact fun m u => ?_
    rw [write32_replaceSlots]
    exact writeOutcome_replaceSlots m _ u
  | w64 a v =>
    change SlotBlind fun s => execW64 a v s
    unfold execW64
    refine slotBlind_transact fun m u => ?_
    rw [write64_replaceSlots]
    exact writeOutcome_replaceSlots m _ u
  | rd32 a =>
    change SlotBlind fun s => execRd32 a s
    unfold execRd32
    refine slotBlind_transact fun m u => ?_
    have hread : read32 (replaceSlots m u) a.toNat = read32 u a.toNat := read32_congr rfl _
    rw [hread]
    cases read32 u a.toNat <;> rfl
  | violation d a p =>
    change SlotBlind fun s => execViolation d a p s
    unfold execViolation
    exact slotBlind_transact fun _ _ => rfl
  | add32 _ _ _ | sub32 _ _ _ | mul32 _ _ _ | div32 _ _ _ =>
    exact slotBlind_atPort (slotBlind_bin32 _ _ _ _)
  | add64 _ _ _ | sub64 _ _ _ | mul64 _ _ _ | div64 _ _ _ =>
    exact slotBlind_atPort (slotBlind_bin64 _ _ _ _)
  | sine64 _ _ _ | cosine64 _ _ _ | tangent64 _ _ _ | squareRoot64 _ _ _ =>
    exact slotBlind_atPort (slotBlind_un64 _ _ _)
  | execute _ _ _ _ => exact slotBlind_atPort (slotBlind_dispatch _)
  | nop _ _ _ | load32 _ _ _ | load64 _ _ _ | store32 _ _ _ | store64 _ _ _ | executeOp _ _ _
  | nopEquiv _ _ _ _ | unsupported _ _ _ _ =>
    exact slotBlind_atPort (slotBlind_answer _)
  | read32 _ | read64 _ | rfClear => exact slotBlind_atPort fun _ _ => rfl
  | write32 n v =>
    exact slotBlind_atPort fun m u => by
      rw [write32_replaceSlots]; exact answerWrite_replaceSlots m _ u
  | write64 n v =>
    exact slotBlind_atPort fun m u => by
      rw [write64_replaceSlots]; exact answerWrite_replaceSlots m _ u
  | osRead n => exact absurd rfl (hr n)
  | osWrite _ _ | osClear | reset => cases hw

/-- Settles O56: what is blind to the slots keeps them, and os.read only answers. -/
theorem onlyStoreChangesSlots : Obligations.OnlyStoreChangesSlots := by
  intro i s t h hw
  by_cases hr : ∃ n, i = .osRead n
  · obtain ⟨n, rfl⟩ := hr
    obtain ⟨-, hanswer⟩ := atPort_next h
    cases hanswer
    rfl
  · exact (slotBlind_exec hw fun n hn => hr ⟨n, hn⟩).slot_eq h

/- ## R133: the slots never influence anything else -/

/-- What is blind to the slots agrees in everything else, the events included. -/
theorem SlotBlind.agree {k : State → Host.Outcome State Fault Refusal} (hk : SlotBlind k)
    (relaxed : Bool) (s : State) (m : Memory) :
    AgreeButSlots relaxed (k s) (k (replaceSlots m s)) := by
  rw [hk]
  cases k s with
  | next s => exact ⟨rfl, rfl, ⟨rfl, rfl, rfl, rfl⟩, rfl, fun _ => rfl⟩
  | fault _ | refused _ => rfl

/-- Of a local-port body only what it does in Idle is to be compared. -/
theorem agreeButSlots_atPort {k : State → Host.Outcome State Fault Refusal} {relaxed : Bool}
    {s : State} {m : Memory} (h : AgreeButSlots relaxed (k s) (k (replaceSlots m s))) :
    AgreeButSlots relaxed (atPort k s) (atPort k (replaceSlots m s)) := by
  cases hp : s.phase with
  | idle => rwa [atPort_idle hp, atPort_idle (s := replaceSlots m s) hp]
  | busyProcessing => rw [atPort_busy hp, atPort_busy (s := replaceSlots m s) hp]; rfl

/-- Settles O16: the two forms are rejected by the decoder. Most instructions are blind to the slots;
the four others end alike, and only os.read puts out what it found. -/
theorem recordsAreNeverExecuted : Obligations.RecordsAreNeverExecuted := by
  refine ⟨fun s n rest hp hi => step_rejected hp hi rfl, fun s rest hp hi => step_rejected hp hi rfl,
    fun i s m => ?_⟩
  change AgreeButSlots _ (exec i s) (exec i (replaceSlots m s))
  cases i with
  | osRead n =>
    exact agreeButSlots_atPort (k := fun s => answer (.record (readSlot s n)) s)
      ⟨rfl, rfl, ⟨rfl, rfl, rfl, rfl⟩, rfl, nofun⟩
  | osClear =>
    exact agreeButSlots_atPort (k := fun s => answer .done (clearSlots s))
      ⟨rfl, rfl, ⟨rfl, rfl, rfl, rfl⟩, rfl, fun _ => rfl⟩
  | reset =>
    exact agreeButSlots_atPort (k := fun s => answer .done (resetBlock s))
      ⟨rfl, rfl, ⟨rfl, rfl, rfl, rfl⟩, rfl, fun _ => rfl⟩
  | osWrite n r =>
    refine agreeButSlots_atPort (k := fun s => answerWrite (writeSlot n r s) s) ?_
    by_cases hn : n < 1024
    · rw [writeSlot_of_lt _ n r hn, writeSlot_of_lt _ n r hn]
      exact ⟨rfl, rfl, ⟨rfl, rfl, rfl, rfl⟩, rfl, fun _ => rfl⟩
    · rw [writeSlot_of_ge _ n r (by omega), writeSlot_of_ge _ n r (by omega)]
      exact ⟨rfl, rfl, ⟨rfl, rfl, rfl, rfl⟩, rfl, fun _ => rfl⟩
  | _ => exact SlotBlind.agree (slotBlind_exec rfl (by nofun)) _ s m

/- ## R105: which register entries change -/

/-- Only the register spaces that `sp` names differ. -/
def KeepsRegisters (sp : Spaces) (s t : State) : Prop :=
  (sp.r32 = false → t.r32 = s.r32) ∧ (sp.r64 = false → t.r64 = s.r64)

theorem KeepsRegisters.refl (sp : Spaces) (s : State) : KeepsRegisters sp s s :=
  ⟨fun _ => rfl, fun _ => rfl⟩

theorem keepsRegisters_answer {sp : Spaces} {s t u : State} {r : PortResult}
    (h : answer r u = .next t) (hu : KeepsRegisters sp s u) : KeepsRegisters sp s t := by
  cases h
  exact hu

theorem keepsRegisters_answerWrite {sp : Spaces} {s t : State} {w : Option State}
    (h : answerWrite w s = .next t) (hw : ∀ v, w = some v → KeepsRegisters sp s v) :
    KeepsRegisters sp s t := by
  cases w with
  | none => exact keepsRegisters_answer h (.refl sp s)
  | some v => exact keepsRegisters_answer h (hw v rfl)

theorem keepsRegisters_writeBack {sp : Spaces} {s t : State} {w : Option State}
    (h : writeBack w s = .next t) (hw : ∀ v, w = some v → KeepsRegisters sp s v) :
    KeepsRegisters sp s t := by
  cases w with
  | none => exact keepsRegisters_answer h (.refl sp s)
  | some v => cases h; exact hw v rfl

theorem keepsRegisters_writeOutcome {sp : Spaces} {s : State} {w : Option State}
    (hw : ∀ v, w = some v → KeepsRegisters sp s v) : KeepsRegisters sp s (writeOutcome w s).1 := by
  cases w with
  | none => exact .refl sp s
  | some v => exact hw v rfl

theorem keepsRegisters_transact {sp : Spaces} {x : Transaction} {k : State → State × Label}
    {s t : State} (h : transact x k s = .next t) (hk : ∀ u, KeepsRegisters sp u (k u).1) :
    KeepsRegisters sp s t := by
  by_cases ha : Admitted x s
  · rw [transact_admitted ha] at h
    cases h
    simpa [KeepsRegisters] using hk (entered x s)
  · rw [transact_overlap ha] at h; cases h

/-- A 32-bit write keeps the 64-bit space (R13). -/
theorem keepsRegisters_write32 {b : Bool} {s t : State} {i : Nat} {v : Word32}
    (h : write32 i v s = some t) : KeepsRegisters ⟨true, false, b⟩ s t := by
  unfold write32 at h
  split at h
  · cases h; exact ⟨nofun, fun _ => rfl⟩
  · cases h

/-- A 64-bit write keeps the 32-bit space (R13). -/
theorem keepsRegisters_write64 {b : Bool} {s t : State} {i : Nat} {v : Word64}
    (h : write64 i v s = some t) : KeepsRegisters ⟨false, true, b⟩ s t := by
  unfold write64 at h
  split at h
  · cases h; exact ⟨fun _ => rfl, nofun⟩
  · cases h

theorem keepsRegisters_bin32 {b : Bool} {F : Datum → Datum → Datum} {d x y : Nat} {s t : State}
    (h : bin32 F d x y s = .next t) : KeepsRegisters ⟨true, false, b⟩ s t := by
  unfold bin32 at h
  split at h
  · exact keepsRegisters_writeBack h fun _ => keepsRegisters_write32
  · exact keepsRegisters_answer h (.refl _ s)

theorem keepsRegisters_bin64 {b : Bool} {F : Datum → Datum → Datum} {d x y : Nat} {s t : State}
    (h : bin64 F d x y s = .next t) : KeepsRegisters ⟨false, true, b⟩ s t := by
  unfold bin64 at h
  split at h
  · exact keepsRegisters_writeBack h fun _ => keepsRegisters_write64
  · exact keepsRegisters_answer h (.refl _ s)

theorem keepsRegisters_un64 {b : Bool} {G : Nat → Word64 → Word64} {d x : Nat} {s t : State}
    (h : un64 G d x s = .next t) : KeepsRegisters ⟨false, true, b⟩ s t := by
  unfold un64 at h
  split at h
  · exact keepsRegisters_writeBack h fun _ => keepsRegisters_write64
  · exact keepsRegisters_answer h (.refl _ s)

/-- `execute` changes no space but the one of its identifier's family (the codes of D7). -/
theorem keepsRegisters_dispatch {r : Request} {s t : State} (h : dispatch r s = .next t) :
    KeepsRegisters (mayWrite (.execute r.op r.dst r.src0 r.src1)) s t := by
  unfold dispatch at h
  cases hc : opOfCode r.op with
  | none =>
    rw [hc] at h
    exact keepsRegisters_answer h (.refl _ s)
  | some o =>
    rw [hc] at h
    rw [eq_opCode hc]
    cases o with
    | add32 | sub32 | mul32 | div32 => exact keepsRegisters_bin32 (b := false) h
    | add64 | sub64 | mul64 | div64 => exact keepsRegisters_bin64 (b := false) h
    | sine64 | cosine64 | tangent64 | squareRoot64 => exact keepsRegisters_un64 (b := false) h

/-- Settles O55, template by template. -/
theorem onlyWritersChangeRegisters : Obligations.OnlyWritersChangeRegisters := by
  intro i s t h
  change KeepsRegisters (mayWrite i) s t
  cases i with
  | w32 a v =>
    unfold exec execW32 at h
    exact keepsRegisters_transact h fun u =>
      keepsRegisters_writeOutcome fun _ => keepsRegisters_write32
  | w64 a v =>
    unfold exec execW64 at h
    exact keepsRegisters_transact h fun u =>
      keepsRegisters_writeOutcome fun _ => keepsRegisters_write64
  | rd32 a =>
    unfold exec execRd32 at h
    refine keepsRegisters_transact h fun u => ?_
    cases read32 u a.toNat <;> exact .refl _ u
  | violation d a p =>
    unfold exec execViolation at h
    exact keepsRegisters_transact h fun u => .refl _ u
  | add32 _ _ _ | sub32 _ _ _ | mul32 _ _ _ | div32 _ _ _ =>
    obtain ⟨-, hbody⟩ := atPort_next h
    exact keepsRegisters_bin32 hbody
  | add64 _ _ _ | sub64 _ _ _ | mul64 _ _ _ | div64 _ _ _ =>
    obtain ⟨-, hbody⟩ := atPort_next h
    exact keepsRegisters_bin64 hbody
  | sine64 _ _ _ | cosine64 _ _ _ | tangent64 _ _ _ | squareRoot64 _ _ _ =>
    obtain ⟨-, hbody⟩ := atPort_next h
    exact keepsRegisters_un64 hbody
  | execute _ _ _ _ =>
    obtain ⟨-, hbody⟩ := atPort_next h
    exact keepsRegisters_dispatch hbody
  | write32 n v =>
    obtain ⟨-, hbody⟩ := atPort_next h
    exact keepsRegisters_answerWrite hbody fun _ => keepsRegisters_write32
  | write64 n v =>
    obtain ⟨-, hbody⟩ := atPort_next h
    exact keepsRegisters_answerWrite hbody fun _ => keepsRegisters_write64
  | osWrite n r =>
    obtain ⟨-, hbody⟩ := atPort_next h
    refine keepsRegisters_answerWrite hbody fun v hv => ?_
    unfold writeSlot at hv
    split at hv
    · cases hv; exact .refl _ s
    · cases hv
  | osClear =>
    unfold exec execOsClear at h
    obtain ⟨-, hbody⟩ := atPort_next h
    exact keepsRegisters_answer hbody (.refl _ s)
  | rfClear | reset => exact ⟨nofun, nofun⟩
  | nop _ _ _ | load32 _ _ _ | load64 _ _ _ | store32 _ _ _ | store64 _ _ _ | executeOp _ _ _
  | nopEquiv _ _ _ _ | unsupported _ _ _ _ | read32 _ | read64 _ | osRead _ =>
    obtain ⟨-, hbody⟩ := atPort_next h
    exact keepsRegisters_answer hbody (.refl _ s)

end Sys2Proof.Machine
end
